-- ==== Sys2Proof/Word.lean ====
section
/-! DEFINITION. The widths of the block's registers and ports, and the words of its `STIM` port and of the internal event port
(00_scope.md R6, 10_state.md R13 to R16, 30_encoding.md R48, R51, R53). -/

namespace Sys2Proof

/-- A stimulus word `S[2:0]` of the `STIM` port (R48). -/
abbrev StimWord := BitVec 3

/-- An event code `E[1:0]` of the internal event port (R51). -/
abbrev EvtWord := BitVec 2

/-- The code held in `STATE` (R13, R54). -/
abbrev StateCode := BitVec 3

/-- `IDX`, the position in the electrical cycle (R14). -/
abbrev StepIndex := BitVec 5

/-- `DIV`, the divider's counter (R15). -/
abbrev DivCount := BitVec 5

/-- An amplitude: `OUT_AMP`, and an entry of `AMP_LUT` (R16, R30). -/
abbrev Amplitude := BitVec 6

/-- A winding-polarity pattern: `OUT_POL`, and an entry of `MPOL_LUT` or `PPOL_LUT` (R16, R30). -/
abbrev Polarity := BitVec 4

/-- The two instruction formats (R48, R51). The port a word comes from says its format (R59). -/
inductive Format where
  /-- A stimulus on the `STIM` port. -/
  | stim3
  /-- An event on the internal event port. -/
  | evt2
  deriving DecidableEq, Repr

/-- The fixed length of a format in bits (R53). -/
def Format.bits : Format → Nat
  | .stim3 => 3
  | .evt2 => 2

/-- A word on one of the two ports (R48, R51). -/
inductive PortWord where
  /-- A 3-bit word on the `STIM` port. -/
  | stim (word : StimWord)
  /-- A 2-bit code on the internal event port. -/
  | evt (code : EvtWord)
  deriving DecidableEq, Repr

/-- The format of a word is that of its port (R59). -/
def PortWord.format : PortWord → Format
  | .stim _ => .stim3
  | .evt _ => .evt2

/-- The bits of a word, read as an unsigned number (R9). -/
def PortWord.value : PortWord → Nat
  | .stim w => w.toNat
  | .evt e => e.toNat

end Sys2Proof
end

