-- ==== Sys2Proof/Syntax.lean ====
section
/-! DEFINITION. The instructions of the block: one constructor for each row of spec/opcode_table.json. They are the five
stimuli of the `STIM` port (30_encoding.md R48) and the four events of the internal event port (R51). None carries an
operand (R52). -/

namespace Sys2Proof

/-- The nine rows of the opcode table. -/
inductive Instr where
  /-- `NOP`: no stimulus arrived this step (R61). -/
  | nop
  /-- `HWTICK`: one periodic hardware tick (R60). -/
  | hwtick
  /-- `CMD_ADVANCE`: the falling edge of the advance line (R97). -/
  | cmdAdvance
  /-- `CMD_RETREAT`: the falling edge of the retreat line (R98). -/
  | cmdRetreat
  /-- `CMD_STOP`: the reserved stop command (R99). -/
  | cmdStop
  /-- `EV_ADVANCE`: the ADVANCE event (R93). -/
  | evAdvance
  /-- `EV_RETREAT`: the RETREAT event (R94). -/
  | evRetreat
  /-- `EV_STOP`: the STOP event (R95). -/
  | evStop
  /-- `EV_TICK`: the step-clock event (R96). -/
  | evTick
  deriving DecidableEq, Repr

/-- The format an instruction belongs to (R48, R51). -/
def Instr.format : Instr → Format
  | .nop => .stim3
  | .hwtick => .stim3
  | .cmdAdvance => .stim3
  | .cmdRetreat => .stim3
  | .cmdStop => .stim3
  | .evAdvance => .evt2
  | .evRetreat => .evt2
  | .evStop => .evt2
  | .evTick => .evt2

end Sys2Proof
end

