-- ==== Sys2Proof/Program.lean ====
section
/-! DEFINITION. What the outside world gives: the items it presents one a step (00_scope.md R7, 10_state.md R20, R27), and
the lines of a stimulus program that spells a sequence of them (30_encoding.md R57, R58). -/

namespace Sys2Proof

/-- One item presented on a port whose words are `α`: a word, or the reset line asserted between two steps (R27, R57). -/
inductive Item (α : Type) where
  /-- A word presented on the port. -/
  | word (w : α)
  /-- The reset line is asserted (R123); it has no code of its own (R57). -/
  | reset
  deriving DecidableEq, Repr

/-- An input of the block: a word of the `STIM` port, or reset, "the only other input" (R7). -/
abbrev Input := Item StimWord

/-- An item of a sequence that drives `Fsm` directly: an EVT2 code, or reset (R51, R57). It is no input of the block. -/
abbrev FsmInput := Item EvtWord

/-- One line of a stimulus program (R57, R58). -/
inductive Line where
  /-- `MNEMONIC*n`, and `MNEMONIC` alone with `n = 1`. -/
  | instr (i : Instr) (n : Nat)
  /-- The directive `RESET`. -/
  | reset
  /-- The pseudo-instruction `STEP*k`, and `STEP` alone with `k = 1`. -/
  | step (k : Nat)
  deriving DecidableEq, Repr

end Sys2Proof
end

