-- ==== Sys2Proof/Machine/State.lean ====
section
/-! DEFINITION. The state of the machine: the record of 10_state.md R17 (`Block`), with what stands at its ports beside
it: what is driven, the items still to be served and the output label of the last step (R8, R20, R27). Plain data throughout. -/

namespace Sys2Proof.Machine

/-- The five motion states (R13). -/
inductive MotorState where
  | stopped
  | forward
  | brakingForward
  | reverse
  | brakingReverse
  deriving DecidableEq, Repr

/-- The four events of the Motion State Machine (R51). An event is transient and never stored (R19). -/
inductive Event where
  | advance
  | retreat
  | stop
  | tick
  deriving DecidableEq, Repr

/-- An output handed to the Output Driver: `(amplitude, polarity)` (R8, R56). -/
structure Output where
  amp : Amplitude
  pol : Polarity
  deriving DecidableEq, Repr

/-- The fault reasons (R106). -/
inductive Fault where
  /-- `IllegalState`: a step began with `STATE` holding an illegal code or with `DIV` above 25 (R107). Every instruction
  raises it, through `guarded`. A fault is never final (R106, D18): it is stored in the field `fault` of a NEXT state, and
  no step ends the run with the host's fault outcome. Safe: the state is kept and nothing is emitted. -/
  | illegalState
  deriving DecidableEq, Repr

/-- The reasons a step is refused. -/
inductive Refusal where
  /-- An instruction without a meaning. No arm of `exec` raises it. Safe: the run stops. -/
  | notModelled (mnemonic : String)
  /-- The decoder refuses a reserved word of the `STIM` port, `101`, `110` or `111` (R50, R105). Raised by `step` through
  `fetch`, never by an instruction. Safe: the run stops (DEDUCED, log entry 7). -/
  | reservedStimulus (word : StimWord)
  deriving DecidableEq, Repr

/-- The complete architectural state (R17). -/
structure Block where
  /-- `STATE`, 3 bits; the codes 5, 6 and 7 are illegal (R13, R54; DESIGN CHOICE, log entry 9). -/
  state : StateCode
  /-- `IDX`, 5 bits, every value legal (R14). -/
  idx : StepIndex
  /-- `DIV`, 5 bits, legal values 0 to 25 (R15). -/
  div : DivCount
  /-- `OUT_AMP`, 6 bits, legal values 0 to 32 (R16). -/
  outAmp : Amplitude
  /-- `OUT_POL`, 4 bits (R16). -/
  outPol : Polarity
  /-- `FAULT`, the sticky mark (R18). -/
  fault : Option Fault
  deriving DecidableEq, Repr

/-- The machine: the block, and what stands at its ports. Only `block` is architectural state (R17).
`drive` says what is driven: `stim3` the block on its `STIM` port, as in every run of the hardware, `evt2` the function `Fsm`
directly with events, which R51 and R57 allow a test to do (DESIGN CHOICE, log entry 4). No step changes it.
`input` is the sequence of inputs the environment has decided on and the block has not served yet, whose head is the next
(R20; DESIGN CHOICE, log entry 1); `events` is the same for a test that drives `Fsm`, and is empty in every run of the hardware.
`label` is the output of the step just taken, `some` exactly when `EMIT` is raised (R8, R27, R66; DESIGN CHOICE, log entry
10). -/
structure State where
  block  : Block
  drive  : Format
  input  : List Input
  events : List FsmInput
  label  : Option Output
  deriving DecidableEq, Repr

/-- What `Fsm` returns: the next motion state, the next index and the optional output (R70). -/
structure FsmResult where
  state : MotorState
  idx   : StepIndex
  out   : Option Output
  deriving DecidableEq, Repr

/-- The block right after reset (R29, R123, R124; DEDUCED, log entry 8). -/
def Block.reset : Block :=
  { state := 0b000#3, idx := 0#5, div := 0#5, outAmp := 16#6, outPol := 1#4, fault := none }

/-- The machine right after reset: the block is driven on its `STIM` port, the reset's own output label is `(16, 1)` (R124),
and no input waits (DESIGN CHOICE, log entries 1 and 4). -/
def State.reset : State :=
  { block := Block.reset, drive := .stim3, input := [], events := [], label := some { amp := 16#6, pol := 1#4 } }

end Sys2Proof.Machine
end

