-- ==== Sys2Proof/Machine/Tables.lean ====
section
/-! DEFINITION. The block's named constants and its three read-only look-up tables (00_scope.md R6, 20_memory.md R30 to
R39). They are constants of the machine and no state: nothing writes them (R32; DEDUCED, log
entry 16). The spec prints every literal and nobody checked one against the original code (UNVERIFIED, log entry 18). -/

namespace Sys2Proof.Machine

/-- `N_STEPS`: the modulus of `IDX` (R6). -/
def nSteps : Nat := 32

/-- `STEPS_PER_QUADRANT`: the spacing of full steps (R6). -/
def stepsPerQuadrant : Nat := 8

/-- `DIVISOR`: hardware ticks per TICK (R6). -/
def divisor : Nat := 26

/-- `AMP_MAX`: the full-scale duty (R6). -/
def ampMax : Nat := 32

/-- `PARK_AMP`: the parking amplitude (R33). -/
def parkAmp : Amplitude := 16#6

/-- `AMP_LUT` (R37). -/
def ampLut : Vector Amplitude 16 :=
  #v[32#6, 31#6, 27#6, 22#6, 16#6, 10#6, 5#6, 1#6, 0#6, 1#6, 5#6, 10#6, 16#6, 22#6, 27#6, 31#6]

/-- `MPOL_LUT` (R38). -/
def mpolLut : Vector Polarity 4 := #v[0b0101#4, 0b0110#4, 0b1010#4, 0b1001#4]

/-- `PPOL_LUT` (R39). -/
def ppolLut : Vector Polarity 4 := #v[0b0001#4, 0b0100#4, 0b0010#4, 0b1000#4]

/-- `MemRead(AMP_LUT, i)`: one whole entry, no side effect; the index width is the table's size (R35, R36). -/
def readAmpLut (i : BitVec 4) : Amplitude := ampLut[i.toNat]'i.isLt

/-- `MemRead(MPOL_LUT, q)` (R36). -/
def readMpolLut (q : BitVec 2) : Polarity := mpolLut[q.toNat]'q.isLt

/-- `MemRead(PPOL_LUT, q)` (R36). -/
def readPpolLut (q : BitVec 2) : Polarity := ppolLut[q.toNat]'q.isLt

end Sys2Proof.Machine
end

