-- ==== Sys2Proof/Machine/Operands.lean ====
section
/-! DEFINITION. The operands of the block's operations. No instruction word carries one (30_encoding.md R52): the only
ones are the two fields derived from an index (10_state.md R22), the motion state a code stands for (30_encoding.md R54),
and the stepped values of the two counters (00_scope.md R10). -/

namespace Sys2Proof.Machine

/-- `QUAD = IDX[4:3]`, which selects a polarity pattern (R22). -/
def quad (i : StepIndex) : BitVec 2 := i.extractLsb' 3 2

/-- `SUB = IDX[3:0]`, which selects an amplitude; it shares bit 3 with `QUAD` (R22). -/
def sub (i : StepIndex) : BitVec 4 := i.extractLsb' 0 4

/-- `(i + 1) mod N_STEPS` (R78, R83). -/
def idxForward (i : StepIndex) : StepIndex := BitVec.ofNat 5 ((i.toNat + 1) % nSteps)

/-- `(i + 31) mod N_STEPS` (R87, R92). -/
def idxBackward (i : StepIndex) : StepIndex := BitVec.ofNat 5 ((i.toNat + (nSteps - 1)) % nSteps)

/-- `(d + 1) mod DIVISOR` (R60). -/
def divNext (d : DivCount) : DivCount := BitVec.ofNat 5 ((d.toNat + 1) % divisor)

/-- The code of a motion state (R54). -/
def codeOf : MotorState → StateCode
  | .stopped => 0b000#3
  | .forward => 0b001#3
  | .brakingForward => 0b010#3
  | .reverse => 0b011#3
  | .brakingReverse => 0b100#3

/-- The motion state a code stands for; the codes 5, 6 and 7 stand for none (R54). -/
def motorOf (c : StateCode) : Option MotorState :=
  if c = 0b000#3 then some .stopped
  else if c = 0b001#3 then some .forward
  else if c = 0b010#3 then some .brakingForward
  else if c = 0b011#3 then some .reverse
  else if c = 0b100#3 then some .brakingReverse
  else none

end Sys2Proof.Machine
end

