-- ==== Sys2Proof/Machine/Flags.lean ====
section
/-! DEFINITION. The block has no status flags (10_state.md R21). What stands here are the conditions its rules test, each
computed from the registers and never stored: the full-step boundary (R23) and the legality of a state (R24, R107). -/

namespace Sys2Proof.Machine

/-- `BOUNDARY`: the index is a multiple of 8 (R23). -/
def boundary (i : StepIndex) : Bool := i.toNat % stepsPerQuadrant == 0

/-- `DIV` is within 0 to 25 (R15); with a code that `motorOf` knows, the state is legal (R107). -/
def divLegal (d : DivCount) : Bool := decide (d.toNat < divisor)

end Sys2Proof.Machine
end

