-- ==== Sys2Proof/Machine/Waveform.lean ====
section
/-! DEFINITION. The Waveform Generator: two pure functions from an index to an output (41_waveform.md R64, R65). -/

namespace Sys2Proof.Machine

/-- `movingWaveform(index)`, the output while the motor moves (R64). -/
def movingWaveform (i : StepIndex) : Output :=
  { amp := readAmpLut (sub i), pol := readMpolLut (quad i) }

/-- `parkingWaveform(index)`, the output that holds the motor at rest (R65). -/
def parkingWaveform (i : StepIndex) : Output :=
  { amp := parkAmp, pol := readPpolLut (quad i) }

end Sys2Proof.Machine
end

