-- ==== Sys2Proof/Machine/Ops.lean ====
section
/-! DEFINITION. The named operations over the block's registers: each register's one writer (10_state.md R28), `emit`
(41_waveform.md R66), taking a fault (60_exceptions.md R106, R107), the order in which a step's outcomes are checked
(R112), and reset with its startup hook (70_reset_and_hazards.md R123, R124). -/

namespace Sys2Proof.Machine

/-- The Motion State Machine writes `STATE` and `IDX` (R28). -/
def Block.setMotion (b : Block) (m : MotorState) (i : StepIndex) : Block :=
  { b with state := codeOf m, idx := i }

/-- The divider writes `DIV` (R28). -/
def Block.setDiv (b : Block) (d : DivCount) : Block :=
  { b with div := d }

/-- `emit(a, p)`: the output latch takes the pair (R66); the step's label is set by `State.commit`. -/
def Block.emit (b : Block) (o : Output) : Block :=
  { b with outAmp := o.amp, outPol := o.pol }

/-- Emit what there is to emit; with nothing, the latch keeps its pair (R66). -/
def Block.emitOption (b : Block) : Option Output → Block
  | none => b
  | some o => b.emit o

/-- `raise Fault(reason)`: the reason is stored and nothing else changes (R106). -/
def Block.raiseFault (b : Block) (r : Fault) : Block :=
  { b with fault := some r }

/-- TAKING A FAULT, AND THE ORDER OF OUTCOMES of one step (R112): with `FAULT` set nothing changes and nothing is emitted
(R18); otherwise an illegal state raises `Fault(IllegalState)` (R107); otherwise the instruction's rule acts, given the
motion state that `STATE` stands for. The fault is stored in a next state (DEDUCED, log entry 6). -/
def guarded (rule : MotorState → Block → Block × Option Output) (b : Block) : Block × Option Output :=
  match b.fault with
  | some _ => (b, none)
  | none =>
    match motorOf b.state with
    | none => (b.raiseFault .illegalState, none)
    | some m => if divLegal b.div then rule m b else (b.raiseFault .illegalState, none)

/-- RESET, the only way out of a fault (R106): every field at its reset value, then the startup hook emits
`parkingWaveform(0)` (R123, R124; DEDUCED, log entry 8). -/
def resetBlock (b : Block) : Block × Option Output :=
  (({ b with state := codeOf .stopped, idx := 0#5, div := 0#5, fault := none } : Block).emit (parkingWaveform 0#5),
    some (parkingWaveform 0#5))

/-- The end of a step: its register writes and its output label appear together (R8, R11, R43). -/
def State.commit (s : State) (r : Block × Option Output) : State :=
  { s with block := r.1, label := r.2 }

/-- Reset, asserted between two steps (R125). The inputs still to be served are the environment's and stay
(DESIGN CHOICE, log entry 13). -/
def State.applyReset (s : State) : State :=
  s.commit (resetBlock s.block)

end Sys2Proof.Machine
end

