-- ==== Sys2Proof/Machine/Fsm.lean ====
section
/-! DEFINITION. The Motion State Machine: the pure transition function, all 22 rows, and its application to the block
(42_state_machine.md R70 to R92). -/

namespace Sys2Proof.Machine

/-- `Fsm(STATE, IDX, e)` (R70). A waveform is computed from the index before the row updates it. -/
def fsm (m : MotorState) (i : StepIndex) (e : Event) : FsmResult :=
  match m, e with
  | .stopped, .advance => { state := .forward, idx := i, out := none }                  -- R71
  | .stopped, .retreat => { state := .reverse, idx := i, out := none }                  -- R72
  | .stopped, .stop => { state := .stopped, idx := i, out := none }                     -- R73
  | .stopped, .tick => { state := .stopped, idx := i, out := none }                     -- R74
  | .forward, .advance => { state := .forward, idx := i, out := none }                  -- R75
  | .forward, .retreat => { state := .brakingForward, idx := i, out := none }           -- R76
  | .forward, .stop => { state := .brakingForward, idx := i, out := none }              -- R77
  | .forward, .tick =>                                                                  -- R78
    { state := .forward, idx := idxForward i, out := some (movingWaveform i) }
  | .brakingForward, .advance => { state := .brakingForward, idx := i, out := none }    -- R79
  | .brakingForward, .retreat => { state := .brakingForward, idx := i, out := none }    -- R80
  | .brakingForward, .stop => { state := .brakingForward, idx := i, out := none }       -- R81
  | .brakingForward, .tick =>
    if boundary i then { state := .stopped, idx := i, out := some (parkingWaveform i) } -- R82
    else { state := .brakingForward, idx := idxForward i, out := some (movingWaveform i) } -- R83
  | .reverse, .advance => { state := .brakingReverse, idx := i, out := none }           -- R84
  | .reverse, .retreat => { state := .reverse, idx := i, out := none }                  -- R85
  | .reverse, .stop => { state := .brakingReverse, idx := i, out := none }              -- R86
  | .reverse, .tick =>                                                                  -- R87
    { state := .reverse, idx := idxBackward i, out := some (movingWaveform i) }
  | .brakingReverse, .advance => { state := .brakingReverse, idx := i, out := none }    -- R88
  | .brakingReverse, .retreat => { state := .brakingReverse, idx := i, out := none }    -- R89
  | .brakingReverse, .stop => { state := .brakingReverse, idx := i, out := none }       -- R90
  | .brakingReverse, .tick =>
    if boundary i then { state := .stopped, idx := i, out := some (parkingWaveform i) } -- R91
    else { state := .brakingReverse, idx := idxBackward i, out := some (movingWaveform i) } -- R92

/-- An event applied to the block: `(STATE, IDX, out) <- Fsm(STATE, IDX, e)`, and the caller emits what it returns
(R93 to R96, R66). -/
def applyEvent (e : Event) (m : MotorState) (b : Block) : Block × Option Output :=
  let r := fsm m b.idx e
  ((b.setMotion r.state r.idx).emitOption r.out, r.out)

end Sys2Proof.Machine
end

