-- ==== Sys2Proof/Machine/Commands.lean ====
section
/-! DEFINITION. The command stimuli (42_state_machine.md R97 to R99): each delivers its event to the Motion State
Machine. -/

namespace Sys2Proof.Machine

/-- `CMD_ADVANCE` on the block (R97). -/
def stepCmdAdvance (b : Block) : Block × Option Output :=
  guarded (applyEvent .advance) b

/-- `CMD_RETREAT` on the block (R98). -/
def stepCmdRetreat (b : Block) : Block × Option Output :=
  guarded (applyEvent .retreat) b

/-- `CMD_STOP` on the block (R99). -/
def stepCmdStop (b : Block) : Block × Option Output :=
  guarded (applyEvent .stop) b

/-- `CMD_ADVANCE` (R97). -/
def execCmdAdvance (s : State) : Host.Outcome State Fault Refusal :=
  .next (s.commit (stepCmdAdvance s.block))

/-- `CMD_RETREAT` (R98). -/
def execCmdRetreat (s : State) : Host.Outcome State Fault Refusal :=
  .next (s.commit (stepCmdRetreat s.block))

/-- `CMD_STOP` (R99). -/
def execCmdStop (s : State) : Host.Outcome State Fault Refusal :=
  .next (s.commit (stepCmdStop s.block))

end Sys2Proof.Machine
end

