-- ==== Sys2Proof/Machine/Divider.lean ====
section
/-! DEFINITION. The Step Clock Divider's stimuli, HWTICK and NOP (40_divider.md R60, R61). Each has its function on the
block, which is the spec's `Step` for that stimulus (00_scope.md R8), and its meaning over the machine's state. -/

namespace Sys2Proof.Machine

/-- `NOP` on the block: nothing changes (R61). -/
def stepNop (b : Block) : Block × Option Output :=
  guarded (fun _ b => (b, none)) b

/-- The body of `HWTICK`: at `DIV = 0` the TICK acts and its output is emitted, and then `DIV` counts on (R60). -/
def hwtickRule (m : MotorState) (b : Block) : Block × Option Output :=
  let r := if b.div = 0#5 then applyEvent .tick m b else (b, none)
  (r.1.setDiv (divNext r.1.div), r.2)

/-- `HWTICK` on the block (R60). -/
def stepHwtick (b : Block) : Block × Option Output :=
  guarded hwtickRule b

/-- `NOP` (R61). -/
def execNop (s : State) : Host.Outcome State Fault Refusal :=
  .next (s.commit (stepNop s.block))

/-- `HWTICK` (R60). -/
def execHwtick (s : State) : Host.Outcome State Fault Refusal :=
  .next (s.commit (stepHwtick s.block))

end Sys2Proof.Machine
end

