-- ==== Sys2Proof/Machine/Events.lean ====
section
/-! DEFINITION. The events, applied to the Motion State Machine directly as 30_encoding.md R51 allows
(42_state_machine.md R93 to R96). They drive `Fsm` on the position the registers hold, and are no input of the block (D24). A step that runs one begins like every step: a set `FAULT` keeps the state (R18) and an
illegal state raises the fault (R55); DEDUCED, log entry 19. -/

namespace Sys2Proof.Machine

/-- `EV_ADVANCE` on the registers (R93). -/
def stepEvAdvance (b : Block) : Block × Option Output :=
  guarded (applyEvent .advance) b

/-- `EV_RETREAT` on the registers (R94). -/
def stepEvRetreat (b : Block) : Block × Option Output :=
  guarded (applyEvent .retreat) b

/-- `EV_STOP` on the registers (R95). -/
def stepEvStop (b : Block) : Block × Option Output :=
  guarded (applyEvent .stop) b

/-- `EV_TICK` on the block; the caller emits the output in the same step (R96). -/
def stepEvTick (b : Block) : Block × Option Output :=
  guarded (applyEvent .tick) b

/-- `EV_ADVANCE` (R93). -/
def execEvAdvance (s : State) : Host.Outcome State Fault Refusal :=
  .next (s.commit (stepEvAdvance s.block))

/-- `EV_RETREAT` (R94). -/
def execEvRetreat (s : State) : Host.Outcome State Fault Refusal :=
  .next (s.commit (stepEvRetreat s.block))

/-- `EV_STOP` (R95). -/
def execEvStop (s : State) : Host.Outcome State Fault Refusal :=
  .next (s.commit (stepEvStop s.block))

/-- `EV_TICK` (R96). -/
def execEvTick (s : State) : Host.Outcome State Fault Refusal :=
  .next (s.commit (stepEvTick s.block))

end Sys2Proof.Machine
end

