-- ==== Sys2Proof/Machine/Dispatch.lean ====
section
/-! DEFINITION. The dispatch: one arm per row of spec/opcode_table.json. -/

namespace Sys2Proof.Machine

def exec (i : Instr) (s : State) : Host.Outcome State Fault Refusal :=
  match i with
  | .nop => Sys2Proof.Machine.execNop s
  | .hwtick => Sys2Proof.Machine.execHwtick s
  | .cmdAdvance => Sys2Proof.Machine.execCmdAdvance s
  | .cmdRetreat => Sys2Proof.Machine.execCmdRetreat s
  | .cmdStop => Sys2Proof.Machine.execCmdStop s
  | .evAdvance => Sys2Proof.Machine.execEvAdvance s
  | .evRetreat => Sys2Proof.Machine.execEvRetreat s
  | .evStop => Sys2Proof.Machine.execEvStop s
  | .evTick => Sys2Proof.Machine.execEvTick s

end Sys2Proof.Machine
end

