-- ==== Sys2Proof/WellFormed.lean ====
section
/-! DEFINITION. Well-formedness. An instruction carries no operand (30_encoding.md R52), so every instruction is
well-formed. A program line has a repetition count of at least 1 (R57, R58), and one program drives one port (R57). -/

namespace Sys2Proof

/-- No field of an instruction can be out of range, because there is none (R52). -/
def Instr.wellFormed : Instr → Bool
  | .nop => true
  | .hwtick => true
  | .cmdAdvance => true
  | .cmdRetreat => true
  | .cmdStop => true
  | .evAdvance => true
  | .evRetreat => true
  | .evStop => true
  | .evTick => true

/-- The counts of `MNEMONIC*n` and `STEP*k` are at least 1 (R57, R58). -/
def Line.wellFormed : Line → Bool
  | .instr i n => i.wellFormed && decide (1 ≤ n)
  | .reset => true
  | .step k => decide (1 ≤ k)

/-- A line can stand in a program for a port: its own format's mnemonics, `RESET` anywhere, and `STEP`, which
expands to `HWTICK` words, on the `STIM` port only (R57, R58). -/
def Line.fitsFormat (f : Format) : Line → Bool
  | .instr i _ => decide (i.format = f)
  | .reset => true
  | .step _ => decide (f = .stim3)

/-- A program for the port of format `f`: well-formed lines that all drive that port (R57). -/
def programWellFormed (f : Format) (p : List Line) : Bool :=
  p.all fun l => l.wellFormed && l.fitsFormat f

end Sys2Proof
end

