-- ==== Sys2Proof/Decode.lean ====
section
/-! DEFINITION. The decoder, total on the words of both ports, and the encoder (30_encoding.md R48 to R53, R59), with the
rows of spec/opcode_table.json as data. -/

namespace Sys2Proof

/-- Why a word is refused. -/
inductive DecodeRefusal where
  /-- A `STIM` word that spells no stimulus: `101`, `110` or `111` (R50). Raised by `decodeStim`. Safe: the run stops. -/
  | reservedStimulus (word : StimWord)
  /-- A number too wide for the port, which has only the format's bits (R53). Raised by `decodeNumber`. Safe: no such
  word can stand on the port. -/
  | outsidePort (f : Format) (value : Nat)
  deriving DecidableEq, Repr

/-- The decoder of the `STIM` port (R49, R50). -/
def decodeStim (w : StimWord) : Except DecodeRefusal Instr :=
  if w = 0b000#3 then .ok .nop
  else if w = 0b001#3 then .ok .hwtick
  else if w = 0b010#3 then .ok .cmdAdvance
  else if w = 0b011#3 then .ok .cmdRetreat
  else if w = 0b100#3 then .ok .cmdStop
  else .error (.reservedStimulus w)

/-- The decoder of the internal event port: all four codes are defined (R51). -/
def decodeEvt (e : EvtWord) : Instr :=
  if e = 0b00#2 then .evAdvance
  else if e = 0b01#2 then .evRetreat
  else if e = 0b10#2 then .evStop
  else .evTick

/-- The decoder: it knows which port a word came from (R59). -/
def decode : PortWord → Except DecodeRefusal Instr
  | .stim w => decodeStim w
  | .evt e => .ok (decodeEvt e)

/-- A number as a word of a port, where it fits the port's width (R53). -/
def wordOfNumber (f : Format) (w : Nat) : Option PortWord :=
  match f with
  | .stim3 => if w < 2 ^ Format.bits .stim3 then some (.stim (BitVec.ofNat 3 w)) else none
  | .evt2 => if w < 2 ^ Format.bits .evt2 then some (.evt (BitVec.ofNat 2 w)) else none

/-- The decoder on any number at all. -/
def decodeNumber (f : Format) (w : Nat) : Except DecodeRefusal Instr :=
  match wordOfNumber f w with
  | some p => decode p
  | none => .error (.outsidePort f w)

/-- The encoder, from the tables of R48 and R51. -/
def encode : Instr → PortWord
  | .nop => .stim 0b000#3
  | .hwtick => .stim 0b001#3
  | .cmdAdvance => .stim 0b010#3
  | .cmdRetreat => .stim 0b011#3
  | .cmdStop => .stim 0b100#3
  | .evAdvance => .evt 0b00#2
  | .evRetreat => .evt 0b01#2
  | .evStop => .evt 0b10#2
  | .evTick => .evt 0b11#2

/-- One row of spec/opcode_table.json: an instruction of `format` is a word `w` with `w &&& mask = pattern`. -/
structure OpcodeRow where
  instr   : Instr
  format  : Format
  pattern : Nat
  mask    : Nat
  deriving DecidableEq, Repr

/-- A word of the row's port matches the row. -/
def OpcodeRow.covers (r : OpcodeRow) (p : PortWord) : Bool :=
  decide (p.format = r.format) && (p.value &&& r.mask == r.pattern)

/-- The opcode table, row by row (R49, R59). -/
def opcodeTable : List OpcodeRow :=
  [ { instr := .nop,        format := .stim3, pattern := 0b000, mask := 0b111 },
    { instr := .hwtick,     format := .stim3, pattern := 0b001, mask := 0b111 },
    { instr := .cmdAdvance, format := .stim3, pattern := 0b010, mask := 0b111 },
    { instr := .cmdRetreat, format := .stim3, pattern := 0b011, mask := 0b111 },
    { instr := .cmdStop,    format := .stim3, pattern := 0b100, mask := 0b111 },
    { instr := .evAdvance,  format := .evt2,  pattern := 0b00,  mask := 0b11 },
    { instr := .evRetreat,  format := .evt2,  pattern := 0b01,  mask := 0b11 },
    { instr := .evStop,     format := .evt2,  pattern := 0b10,  mask := 0b11 },
    { instr := .evTick,     format := .evt2,  pattern := 0b11,  mask := 0b11 } ]

/-- The port a table row of `nbits` bits is read from. A row of 2 bits is an EVT2 event; any other width, the host's
whole byte included, is read as a word of the `STIM` port, the only port the outside world has (R51, DESIGN CHOICE, log entry 3). -/
def tableFormat (nbits : Nat) : Format :=
  if nbits = 2 then .evt2 else .stim3

/-- The word of a port that a table row's bits stand for (DESIGN CHOICE, log entry 3). -/
def tableWord (nbits w : Nat) : Option PortWord :=
  wordOfNumber (tableFormat nbits) w

/-- What the decoder reads from an instruction whose bits are `w`, numbered as spec/opcode_table.json numbers them. -/
def decodeTableWord (nbits w : Nat) : Option Instr :=
  match decodeNumber (tableFormat nbits) w with
  | .ok i => some i
  | .error _ => none

end Sys2Proof
end

