-- ==== Sys2Proof/Machine/Fetch.lean ====
section
/-! DEFINITION. Taking the next input. The block fetches nothing from a memory and has no program counter (10_state.md
R20, 20_memory.md R31): the next input is the head of the sequence the environment gives it (00_scope.md R7). The
function `Fsm` can be driven with events in its own sequence, apart from the block's (30_encoding.md R51, R57). -/

namespace Sys2Proof.Machine

/-- What the next step is to do, with the state in which it does it. -/
inductive Fetched where
  /-- Run an instruction. -/
  | instr (i : Instr) (s : State)
  /-- The reset line is asserted (R123). -/
  | reset (s : State)
  /-- The decoder refuses the word (R105). -/
  | refused (r : Refusal)
  deriving DecidableEq, Repr

/-- The machine's reason for a refusal of the decoder. Only a reserved `STIM` word is refused on a port (R50); a number
too wide for its port never stands on one. -/
def refusalOf : DecodeRefusal → Refusal
  | .reservedStimulus w => .reservedStimulus w
  | .outsidePort _ v => .reservedStimulus (BitVec.ofNat 3 v)

/-- The state with the item a step serves taken off the sequence that is driven: exactly one a step (R48, R110). -/
def State.takeItem (s : State) : State :=
  match s.drive with
  | .stim3 => { s with input := s.input.tail }
  | .evt2 => { s with events := s.events.tail }

/-- What a step does with the items of a port that `dec` decodes; `t` is the state without the first. With no item the port
is idle, which is the stimulus `NOP` (R48, R61; DEDUCED, log entry 2). -/
def fetchItem {α : Type} (dec : α → Except DecodeRefusal Instr) (t : State) : List (Item α) → Fetched
  | [] => .instr .nop t
  | .reset :: _ => .reset t
  | .word w :: _ =>
    match dec w with
    | .ok i => .instr i t
    | .error r => .refused (refusalOf r)

/-- The decoder of the event port, which refuses no code (R51). -/
def decodeEvent (e : EvtWord) : Except DecodeRefusal Instr := .ok (decodeEvt e)

/-- Take the next item. The block takes words of its `STIM` port and the reset line and nothing else (R7, D24); an event code
is taken only where `Fsm` is driven directly (R51; DESIGN CHOICE, log entry 4). -/
def fetch (s : State) : Fetched :=
  match s.drive with
  | .stim3 => fetchItem decodeStim s.takeItem s.input
  | .evt2 => fetchItem decodeEvent s.takeItem s.events

/-- Present a word as the next item of its own port, before those that wait, and drive that port. -/
def State.present (s : State) : PortWord → State
  | .stim w => { s with drive := .stim3, input := .word w :: s.input }
  | .evt e => { s with drive := .evt2, events := .word e :: s.events }

/-- Present the instruction whose table bits are `w` (DESIGN CHOICE, log entry 3). A number too wide for the port cannot be
presented, and the state is then left as it is. -/
def State.presentTableWord (s : State) (nbits w : Nat) : State :=
  match tableWord nbits w with
  | some p => s.present p
  | none => s

end Sys2Proof.Machine
end

