-- ==== Sys2Proof/Machine/Step.lean ====
section
/-! DEFINITION. The step: one item taken and processed to completion as one indivisible transition (00_scope.md R7,
60_exceptions.md R112). -/

namespace Sys2Proof.Machine

/-- One step of the machine. -/
def step (s : State) : Host.Outcome State Fault Refusal :=
  match fetch s with
  | .instr i t => exec i t
  | .reset t => .next t.applyReset
  | .refused r => .refused r

/-- `s` with the instruction of the table bits `w` as the next item, so that the very next step runs it. -/
def State.withFetchWord (s : State) (nbits w : Nat) : State :=
  s.presentTableWord nbits w

end Sys2Proof.Machine
end

