-- ==== Sys2Proof/Machine/Assembler.lean ====
section
/-! DEFINITION. The assembler of stimulus programs (30_encoding.md R57, R58): the text of a program as lines, and lines as
the sequence of inputs they stand for. A text is a list of characters. The syntax is the spec's own notation (D19); that
blanks around an item do not count is DESIGN CHOICE, log entry 5. -/

namespace Sys2Proof.Machine

/-- The mnemonic of an instruction (R48, R51). -/
def mnemonic : Instr → List Char
  | .nop => ['N', 'O', 'P']
  | .hwtick => ['H', 'W', 'T', 'I', 'C', 'K']
  | .cmdAdvance => ['C', 'M', 'D', '_', 'A', 'D', 'V', 'A', 'N', 'C', 'E']
  | .cmdRetreat => ['C', 'M', 'D', '_', 'R', 'E', 'T', 'R', 'E', 'A', 'T']
  | .cmdStop => ['C', 'M', 'D', '_', 'S', 'T', 'O', 'P']
  | .evAdvance => ['E', 'V', '_', 'A', 'D', 'V', 'A', 'N', 'C', 'E']
  | .evRetreat => ['E', 'V', '_', 'R', 'E', 'T', 'R', 'E', 'A', 'T']
  | .evStop => ['E', 'V', '_', 'S', 'T', 'O', 'P']
  | .evTick => ['E', 'V', '_', 'T', 'I', 'C', 'K']

/-- The instruction a mnemonic names. -/
def instrNamed (cs : List Char) : Option Instr :=
  (opcodeTable.map OpcodeRow.instr).find? fun i => mnemonic i == cs

/-- One decimal digit. -/
def digitOf (c : Char) : Option Nat :=
  ['0', '1', '2', '3', '4', '5', '6', '7', '8', '9'].findIdx? (· == c)

/-- A decimal integer of at least one digit. -/
def decimalOf : List Char → Option Nat
  | [] => none
  | c :: cs => (c :: cs).foldl (fun n c => n.bind fun n => (digitOf c).map fun d => 10 * n + d) (some 0)

/-- A blank character inside a line. -/
def isBlank (c : Char) : Bool := c == ' ' || c == '\t' || c == '\r'

/-- A line without its comment, which starts at `;` and runs to the end of the line (R57), and without the blanks around
what is left. -/
def lineItem (cs : List Char) : List Char :=
  (((cs.takeWhile (· != ';')).dropWhile isBlank).reverse.dropWhile isBlank).reverse

/-- The lines of a text. -/
def linesOf : List Char → List (List Char)
  | [] => [[]]
  | c :: cs =>
    match linesOf cs with
    | [] => [[c]]
    | l :: ls => if c == '\n' then [] :: l :: ls else (c :: l) :: ls

/-- The count after a name: absent means 1, and a count is at least 1 (R57, R58). -/
def countOf : List Char → Option Nat
  | [] => some 1
  | c :: cs =>
    if c == '*' then (decimalOf cs).bind fun n => if n = 0 then none else some n else none

/-- The item of a line as a program line: `MNEMONIC`, `MNEMONIC*n`, `STEP`, `STEP*k` or `RESET` (R57, R58). -/
def itemLine (cs : List Char) : Option Line :=
  let name := cs.takeWhile (· != '*')
  let count := countOf (cs.dropWhile (· != '*'))
  if cs = ['R', 'E', 'S', 'E', 'T'] then some .reset
  else if name = ['S', 'T', 'E', 'P'] then count.map .step
  else (instrNamed name).bind fun i => count.map (.instr i)

/-- The items in order, with the lines that hold none left out; no program where one of them spells nothing. -/
def itemLines : List (List Char) → Option (List Line)
  | [] => some []
  | l :: ls =>
    if lineItem l = [] then itemLines ls
    else (itemLine (lineItem l)).bind fun x => (itemLines ls).map fun xs => x :: xs

/-- The lines of a program text (R57). -/
def parseProgram (text : List Char) : Option (List Line) :=
  itemLines (linesOf text)

/-- The hardware ticks up to and including the first that produces a TICK, from `DIV = d` (R58). -/
def ticksToTick (d : Nat) : Nat := (divisor - d) % divisor + 1

/-- The hardware ticks that `STEP*k` stands for, from `DIV = d` (R58). -/
def stepLength (d k : Nat) : Nat := ticksToTick d + divisor * (k - 1)

/-- The items a line stands for, from `DIV = d`, and the value of `DIV` after them (R57, R58). -/
def expandLine (d : Nat) : Line → List (Item PortWord) × Nat
  | .instr i n => (List.replicate n (.word (encode i)), if i = .hwtick then (d + n) % divisor else d)
  | .reset => ([.reset], 0)
  | .step k => (List.replicate (stepLength d k) (.word (encode .hwtick)), 1)

/-- A program's encoding: the sequence of its words, with the reset directives between them (R57). The assembler tracks
the value `d` of `DIV` (R58). -/
def assemble (d : Nat) : List Line → List (Item PortWord)
  | [] => []
  | l :: ls => (expandLine d l).1 ++ assemble (expandLine d l).2 ls

/-- What of a program's encoding the `STIM` port carries; of a program for that port, all of it (R57). -/
def stimItems (xs : List (Item PortWord)) : List Input :=
  xs.filterMap fun x =>
    match x with
    | .word (.stim w) => some (.word w)
    | .word (.evt _) => none
    | .reset => some .reset

/-- What of a program's encoding the event port carries; of a program that drives `Fsm`, all of it (R57). -/
def evtItems (xs : List (Item PortWord)) : List FsmInput :=
  xs.filterMap fun x =>
    match x with
    | .word (.stim _) => none
    | .word (.evt e) => some (.word e)
    | .reset => some .reset

/-- Present a program on the port of its format, in place of what waits there (R57; DESIGN CHOICE, log entry 1). -/
def State.load (s : State) (f : Format) (p : List Line) : State :=
  match f with
  | .stim3 => { s with drive := .stim3, input := stimItems (assemble s.block.div.toNat p) }
  | .evt2 => { s with drive := .evt2, events := evtItems (assemble s.block.div.toNat p) }

end Sys2Proof.Machine
end

