-- ==== Sys2Proof/Config.lean ====
section
/-! DEFINITION. What the spec leaves to an implementation or to the environment (93_implementation_defined.md,
92_eei_decisions.md). Every constant without a body is an uninterpreted parameter: no proof can learn its value. No
meaning of an instruction reads one of them. The printed literals of 00_scope.md R6 are in Machine/Tables.lean. -/

namespace Sys2Proof

/-- The switches that restrict the environment of a run (R111; I1, I8). Both are off unless a claim says otherwise. -/
structure Config.Environment where
  /-- `TICK_FIRST`: a waiting `HWTICK` is served before any waiting command (R111, D10). -/
  tickFirst : Bool := false
  /-- `STOP_WIRED`: the environment may present `CMD_STOP` (I1); false is the original wiring. -/
  stopWired : Bool := false
  deriving DecidableEq, Repr

/-- `POL_BIT_MAP`: the setting of the bridge's switches that a polarity pattern stands for; it belongs to the Output Driver,
and nothing is assumed of single bits (D7, I5; DESIGN CHOICE, log entry 14). -/
opaque Config.polBitMap : Polarity → Nat

/-- `PWM_MAP`: the PWM compare value of an amplitude; it belongs to the Output Driver (I6). -/
opaque Config.pwmMap : Amplitude → Nat

/-- `HW_TICK_PERIOD`: the period of the hardware tick, which no rule uses (D22, I7). -/
opaque Config.hwTickPeriod : Nat

/-- The amplitude driven between power-up and the startup hook: any value (I4). -/
opaque Config.powerUpAmp : Amplitude

/-- The polarity pattern driven between power-up and the startup hook: any value (I4). -/
opaque Config.powerUpPol : Polarity

end Sys2Proof
end

