-- ==== Sys2Proof/Machine/Environment.lean ====
section
/-! DEFINITION. The environment that chooses the sequence of inputs (60_exceptions.md R109 to R111;
93_implementation_defined.md I1, I8). The block has no pending latch (10_state.md R19): which stimuli wait together, and
in which order they are served, is decided outside it (DESIGN CHOICE, log entry 15). -/

namespace Sys2Proof.Machine

/-- A command stimulus, of the lower priority; `CMD_STOP` is taken as one (R109). -/
def isCommand : Instr → Bool
  | .cmdAdvance => true
  | .cmdRetreat => true
  | .cmdStop => true
  | .nop => false
  | .hwtick => false
  | .evAdvance => false
  | .evRetreat => false
  | .evStop => false
  | .evTick => false

/-- `order` is an order in which the stimuli that wait together may be served: any order, and with `TICK_FIRST` on one in
which no command stands before a hardware tick (R111, D10). -/
def ServiceOrder (env : Config.Environment) (waiting order : List Instr) : Prop :=
  order.Perm waiting ∧
    (env.tickFirst = true → order.Pairwise fun a b => ¬(isCommand a = true ∧ b = .hwtick))

/-- The environment may give the block the sequence: no `CMD_STOP` unless `STOP_WIRED` is on (I1). -/
def admits (env : Config.Environment) (xs : List Input) : Bool :=
  xs.all fun x => env.stopWired || decide (x ≠ .word 0b100#3)

end Sys2Proof.Machine
end

