-- ==== Sys2Proof/Machine/Run.lean ====
section
/-! DEFINITION. The block's own step function (00_scope.md R8) and a run of it over a finite sequence of inputs, with the
observation of 92_eei_decisions.md D21 and the run's refusal mark (60_exceptions.md R105). `Machine.step` ends at a refused
word; a run goes on past one, with the mark set. -/

namespace Sys2Proof.Machine

/-- `Step : (State, Stimulus) -> (State, Option Output)` on the architectural state (R8); for the four events, the step of a
test that drives `Fsm` (R51). -/
def blockStep (i : Instr) (b : Block) : Block × Option Output :=
  match i with
  | .nop => stepNop b
  | .hwtick => stepHwtick b
  | .cmdAdvance => stepCmdAdvance b
  | .cmdRetreat => stepCmdRetreat b
  | .cmdStop => stepCmdStop b
  | .evAdvance => stepEvAdvance b
  | .evRetreat => stepEvRetreat b
  | .evStop => stepEvStop b
  | .evTick => stepEvTick b

/-- What a run has come to: the block, the output labels of its steps, oldest first, and the refusal mark (D21, R105). -/
structure Run where
  block   : Block
  labels  : List (Option Output)
  refused : Bool
  deriving DecidableEq, Repr

/-- A step's registers and label join the run. -/
def Run.add (r : Run) (x : Block × Option Output) : Run :=
  { r with block := x.1, labels := r.labels ++ [x.2] }

/-- One item of a run on the port that `dec` decodes. A refused word has no step: the block and the labels stay and the mark
is set for the rest of the run (R105); reset does not clear the mark (R123; DEDUCED, log entry 7). -/
def Run.next {α : Type} (dec : α → Except DecodeRefusal Instr) (r : Run) : Item α → Run
  | .reset => r.add (resetBlock r.block)
  | .word w =>
    match dec w with
    | .ok i => r.add (blockStep i r.block)
    | .error _ => { r with refused := true }

/-- The run of a sequence of items on one port, from the block `b`. -/
def runWith {α : Type} (dec : α → Except DecodeRefusal Instr) (b : Block) (xs : List (Item α)) : Run :=
  xs.foldl (Run.next dec) { block := b, labels := [], refused := false }

/-- The run of the block over inputs on its `STIM` port (R7, D21). -/
def runFrom (b : Block) (xs : List Input) : Run :=
  runWith decodeStim b xs

/-- The run of events that drive `Fsm` directly (R51, R57). -/
def runEvents (b : Block) (es : List FsmInput) : Run :=
  runWith decodeEvent b es

/-- The labels that are emissions, that is the steps with `EMIT` raised (R27). -/
def Run.emissions (r : Run) : List Output := r.labels.filterMap id

end Sys2Proof.Machine
end

