-- ==== Sys2Proof/Safety.lean ====
section
/-! DEFINITION. What counts as a safe run, and the invariants of the block, in the terms the claims use
(10_state.md R24, R25; 92_eei_decisions.md D21). -/

namespace Sys2Proof.Machine

/-- No fault stands and the block is in motion state `m` with `DIV` in its range: the states in which an instruction has
its own effect (R112). -/
def Block.ReadyIn (b : Block) (m : MotorState) : Prop :=
  b.fault = none ∧ b.state = codeOf m ∧ b.div.toNat ≤ 25

/-- The block is ready in some motion state. -/
def Block.Ready (b : Block) : Prop :=
  b.fault = none ∧ b.state.toNat ≤ 4 ∧ b.div.toNat ≤ 25

/-- The output latch holds the pair `o`. -/
def Block.Drives (b : Block) (o : Output) : Prop :=
  b.outAmp = o.amp ∧ b.outPol = o.pol

/-- The numeric invariants: each register is within its legal values (R24). -/
def Block.InRange (b : Block) : Prop :=
  b.idx.toNat ≤ 31 ∧ b.div.toNat ≤ 25 ∧ b.state.toNat ≤ 4 ∧ b.outAmp.toNat ≤ 32

/-- At rest the block stands on a full-step boundary (R25). -/
def Block.ParksOnBoundary (b : Block) : Prop :=
  b.state = codeOf .stopped → b.idx.toNat % 8 = 0

/-- The output agrees with the position. At rest it is the parking waveform of the index; going forward it is the moving
waveform of the index before, going backward that of the index after, or, while the first TICK has not come, still the
parking waveform of the boundary the block rests on. -/
def Block.OutputTracks (b : Block) : Prop :=
  (b.state = codeOf .stopped → b.Drives (parkingWaveform b.idx)) ∧
  (b.state = codeOf .forward ∨ b.state = codeOf .brakingForward →
    b.Drives (movingWaveform (b.idx - 1#5)) ∨ (b.idx.toNat % 8 = 0 ∧ b.Drives (parkingWaveform b.idx))) ∧
  (b.state = codeOf .reverse ∨ b.state = codeOf .brakingReverse →
    b.Drives (movingWaveform (b.idx + 1#5)) ∨ (b.idx.toNat % 8 = 0 ∧ b.Drives (parkingWaveform b.idx)))

/-- The invariant of every run from reset: ready, in range, parked on a boundary, the output in step with the position. -/
def Block.Sound (b : Block) : Prop :=
  b.Ready ∧ b.InRange ∧ b.ParksOnBoundary ∧ b.OutputTracks

/-- A run that a claim may speak of: no word was refused and no fault stands (R105, D21). -/
def Run.clean (r : Run) : Prop :=
  r.refused = false ∧ r.block.fault = none

end Sys2Proof.Machine
end

