-- ==== Sys2Proof/Certificates/Slice0/Obligations.lean ====
section
/-! DEFINITION. The statements for the provers. Each docstring names the rule or the section of spec/ it formalises. Where a
statement rests on a decision or an inference that the spec marks as its own, its basis is 'derived' and the docstring says
which. -/

open Sys2Proof Sys2Proof.Machine

/-! ## Reset -/

/-- MODEL CHOICE AND SPEC DECISIONS. The reset values. `STATE` and `IDX` are the source's. `DIV = 0` is the spec's own
inference ("derived: from §4.1", 10_state.md section 6), the output `(16, 1)` and its label its decision D9, `FAULT = None`
its decision D18; that the block is driven on its `STIM` port and that no input waits are log entries 4 and 1. -/
def Obligations.ResetValues : Prop :=
  State.reset.block.state = 0b000#3 ∧ State.reset.block.idx = 0#5 ∧ State.reset.block.div = 0#5 ∧
  State.reset.block.outAmp = 16#6 ∧ State.reset.block.outPol = 1#4 ∧ State.reset.block.fault = none ∧
  State.reset.label = some { amp := 16#6, pol := 1#4 } ∧ State.reset.drive = .stim3 ∧
  State.reset.input = [] ∧ State.reset.events = []

/-- Reset asserted between two steps, in any state, a faulted or illegal one included, leaves the reset values and emits
`parkingWaveform(0)` in one step (70_reset_and_hazards.md section 1), on the block's port and where `Fsm` is driven. The
spec's decision D9 makes the startup hook part of the indivisible reset; `DIV = 0` is its inference; that the items still
waiting stay is log entry 13, the model's choice. -/
def Obligations.ResetFromAnyState : Prop :=
  ∀ s : State,
    (∀ rest : List Input, s.drive = .stim3 → s.input = .reset :: rest →
      step s = .next
        { s with
          block := { state := 0b000#3, idx := 0#5, div := 0#5, outAmp := 16#6, outPol := 1#4, fault := none },
          input := rest,
          label := some { amp := 16#6, pol := 1#4 } }) ∧
    (∀ rest : List FsmInput, s.drive = .evt2 → s.events = .reset :: rest →
      step s = .next
        { s with
          block := { state := 0b000#3, idx := 0#5, div := 0#5, outAmp := 16#6, outPol := 1#4, fault := none },
          events := rest,
          label := some { amp := 16#6, pol := 1#4 } })

/-! ## The step -/

/-- A step runs the decoded instruction: the word that stands first on the port that is driven is taken off, decoded and
executed; with none the step is that of NOP (log entry 2, the model's reading of an idle port). Spec decision D1; the two
ports are log entry 4. -/
def Obligations.StepRunsDecodedInstruction : Prop :=
  ∀ s : State,
    (∀ (w : StimWord) (rest : List Input) (i : Instr), s.drive = .stim3 → s.input = .word w :: rest →
      decode (.stim w) = .ok i → step s = exec i { s with input := rest }) ∧
    (s.drive = .stim3 → s.input = [] → step s = exec .nop s) ∧
    (∀ (e : EvtWord) (rest : List FsmInput) (i : Instr), s.drive = .evt2 → s.events = .word e :: rest →
      decode (.evt e) = .ok i → step s = exec i { s with events := rest }) ∧
    (s.drive = .evt2 → s.events = [] → step s = exec .nop s)

/-- The host's table word, presented on its own port as the next item, is what the very next step runs (log entry 3, the
model's choice). -/
def Obligations.PresentedTableWordRunsNext : Prop :=
  ∀ (s : State) (nbits w : Nat) (i : Instr), decodeTableWord nbits w = some i →
    step (s.withFetchWord nbits w) = exec i { s with drive := i.format }

/-- MODEL CHOICE. Each step serves exactly one item, the first of the port that is driven, and neither defers nor queues
one. That the items are a list in the state, and that the driven port never changes, are log entries 1 and 4; that an idle
step serves none is log entry 2; that a reset leaves those that wait is log entry 13. The model's form of 60_exceptions.md
section 2 and decision D10, by which a step takes one stimulus and no latch holds another. -/
def Obligations.StepServesExactlyOneInput : Prop :=
  ∀ s t : State, step s = .next t →
    t.drive = s.drive ∧
    (s.drive = .stim3 → t.input = s.input.tail ∧ t.events = s.events) ∧
    (s.drive = .evt2 → t.input = s.input ∧ t.events = s.events.tail)

/-- What the block takes: a step on the `STIM` port is the reset its inputs begin with, or it runs one of the five stimuli
on the state without its first input. No event is ever run there, whatever waits on the event port (00_scope.md section 4
with decisions D1 and D24; that the ports are told apart by a field of the state is log entry 4). -/
def Obligations.BlockTakesOnlyStimuliAndReset : Prop :=
  ∀ s t : State, s.drive = .stim3 → step s = .next t →
    (∃ rest, s.input = .reset :: rest ∧ t = ({ s with input := rest } : State).applyReset) ∨
    ∃ i : Instr, (i = .nop ∨ i = .hwtick ∨ i = .cmdAdvance ∨ i = .cmdRetreat ∨ i = .cmdStop) ∧
      (s.input = [] → i = .nop) ∧ (∀ w rest, s.input = .word w :: rest → encode i = .stim w) ∧
      exec i { s with input := s.input.tail } = .next t

/-- TICK comes only from the divider: on the `STIM` port, a step that is not a reset and that emits or moves the index has
served the word HWTICK with `DIV = 0` (decision D24; the field `drive` is log entry 4). -/
def Obligations.TickComesOnlyFromTheDivider : Prop :=
  ∀ s t : State, s.drive = .stim3 → (∀ rest, s.input ≠ .reset :: rest) → step s = .next t →
    (t.label ≠ none ∨ t.block.idx ≠ s.block.idx) →
    (∃ rest, s.input = .word 0b001#3 :: rest) ∧ s.block.div = 0#5

/-- A step is refused exactly when it serves one of the reserved words 101, 110 and 111 on the `STIM` port, and the reason
names the word (30_encoding.md section 1, 60_exceptions.md section 1; decisions D3 and D18). -/
def Obligations.OnlyReservedWordsAreRefused : Prop :=
  ∀ (s : State) (r : Refusal), step s = .refused r ↔
    s.drive = .stim3 ∧ ∃ (w : StimWord) (rest : List Input),
      s.input = .word w :: rest ∧ 5 ≤ w.toNat ∧ r = .reservedStimulus w

/-- No stimulus and no event has an error outcome: every instruction answers a next state in every state, and no step ends
the run with a fault (60_exceptions.md section 1; that a fault is stored and never final is decision D18). -/
def Obligations.EveryInstructionCompletes : Prop :=
  (∀ (i : Instr) (s : State), ∃ t, exec i s = .next t) ∧ (∀ (s : State) (f : Fault), step s ≠ .fault f)

/-- The order in which the outcomes of an instruction are checked: a set `FAULT` keeps the block and emits nothing; else an
illegal `STATE` code or a `DIV` above 25 raises `Fault(IllegalState)`, which changes `FAULT` and nothing else
(60_exceptions.md sections 1 and 2, decision D18; for the four events log entry 19). -/
def Obligations.FaultOutcomesComeFirst : Prop :=
  ∀ (i : Instr) (s : State),
    (s.block.fault ≠ none → exec i s = .next { s with label := none }) ∧
    (s.block.fault = none → (5 ≤ s.block.state.toNat ∨ 26 ≤ s.block.div.toNat) →
      exec i s = .next { s with block := { s.block with fault := some .illegalState }, label := none })

/-- After a fault, no sequence of steps without a reset changes the block or emits anything (60_exceptions.md section 1,
decision D18). -/
def Obligations.FaultLastsUntilReset : Prop :=
  ∀ (n : Nat) (s t : State), s.block.fault ≠ none →
    (s.drive = .stim3 → ∀ x ∈ s.input.take n, x ≠ .reset) →
    (s.drive = .evt2 → ∀ x ∈ s.events.take n, x ≠ .reset) →
    Sys2Proof.core.run n s = .next t → t.block = s.block ∧ (n ≠ 0 → t.label = none)

/-! ## Encoding -/

/-- Words written out from the encoding tables decode to their instructions (30_encoding.md sections 1 and 2; the codes are
decisions D3 and D4). -/
def Obligations.WordsDecodeAsTheTablesSay : Prop :=
  decode (.stim 0b000#3) = .ok .nop ∧ decode (.stim 0b001#3) = .ok .hwtick ∧
  decode (.stim 0b010#3) = .ok .cmdAdvance ∧ decode (.stim 0b100#3) = .ok .cmdStop ∧
  decode (.stim 0b110#3) = .error (.reservedStimulus 0b110#3) ∧
  decode (.evt 0b01#2) = .ok .evRetreat ∧ decode (.evt 0b11#2) = .ok .evTick

/-- Decode and encode agree, for every sequence of instructions and every sequence of words of both ports: the words decode
to the instructions exactly when they are the instructions' encodings (30_encoding.md sections 1, 2 and 4; decisions D3 and
D4). -/
def Obligations.DecodeInvertsEncode : Prop :=
  ∀ (words : List PortWord) (is : List Instr), words.mapM decode = .ok is ↔ words = is.map encode

/-- The decoder is the opcode table: a word decodes to an instruction exactly when a row of that instruction covers it, and
no word is covered by two different rows (30_encoding.md sections 1 and 4; decision D3). -/
def Obligations.DecoderIsTheOpcodeTable : Prop :=
  (∀ (p : PortWord) (i : Instr), decode p = .ok i ↔ ∃ r ∈ opcodeTable, r.instr = i ∧ r.covers p = true) ∧
  (∀ (p : PortWord) (r q : OpcodeRow), r ∈ opcodeTable → q ∈ opcodeTable →
    r.covers p = true → q.covers p = true → r = q)

/-! ## Derived fields and waveforms -/

/-- R22: `QUAD` is the index divided by 8 and `SUB` the index modulo 16, and bit 3 of the index is in both. -/
def Obligations.QuadrantAndSubindexFields : Prop :=
  ∀ i : StepIndex,
    (quad i).toNat = i.toNat / 8 ∧ (sub i).toNat = i.toNat % 16 ∧
    (quad i).getLsbD 0 = i.getLsbD 3 ∧ (sub i).getLsbD 3 = i.getLsbD 3

/-- R64: the moving waveform, from the printed tables. -/
def Obligations.MovingWaveformReadsTheTables : Prop :=
  ∀ i : StepIndex,
    some (movingWaveform i).amp.toNat =
      ([32, 31, 27, 22, 16, 10, 5, 1, 0, 1, 5, 10, 16, 22, 27, 31] : List Nat)[i.toNat % 16]? ∧
    some (movingWaveform i).pol.toNat = ([5, 6, 10, 9] : List Nat)[i.toNat / 8]?

/-- R65 and R33: the parking waveform is amplitude 16 with the parking polarity of the quadrant. -/
def Obligations.ParkingWaveformReadsTheTable : Prop :=
  ∀ i : StepIndex,
    (parkingWaveform i).amp.toNat = 16 ∧
    some (parkingWaveform i).pol.toNat = ([1, 4, 2, 8] : List Nat)[i.toNat / 8]?

/-- No parking polarity is a moving polarity, and every amplitude is within 0 to 32 (41_waveform.md section 2, which marks
this as its own inference, "derived: from rules R64 and R65"). -/
def Obligations.ParkingNeverLooksLikeMoving : Prop :=
  ∀ i j : StepIndex,
    (parkingWaveform i).pol ≠ (movingWaveform j).pol ∧
    (movingWaveform i).amp.toNat ≤ 32 ∧ (parkingWaveform i).amp.toNat ≤ 32

/-! ## The stimuli of the divider -/

/-- R61: NOP. A set `FAULT` keeps everything, an illegal state raises the fault, and otherwise no register and no output
changes and nothing is emitted. -/
def Obligations.NopChangesNothing : Prop :=
  decode (.stim 0b000#3) = .ok .nop ∧
  ∀ s : State,
    (s.block.fault ≠ none → exec .nop s = .next { s with label := none }) ∧
    (s.block.fault = none → (5 ≤ s.block.state.toNat ∨ 26 ≤ s.block.div.toNat) →
      exec .nop s = .next { s with block := { s.block with fault := some .illegalState }, label := none }) ∧
    (s.block.Ready → exec .nop s = .next { s with label := none })

/-- R60: HWTICK. With `DIV` not 0 only `DIV` counts on, modulo 26; with `DIV = 0` the step does what EV_TICK does, its
emission included, and then `DIV` is 1. -/
def Obligations.HwtickCountsAndTicks : Prop :=
  decode (.stim 0b001#3) = .ok .hwtick ∧
  ∀ s : State,
    (s.block.fault ≠ none → exec .hwtick s = .next { s with label := none }) ∧
    (s.block.fault = none → (5 ≤ s.block.state.toNat ∨ 26 ≤ s.block.div.toNat) →
      exec .hwtick s = .next { s with block := { s.block with fault := some .illegalState }, label := none }) ∧
    (s.block.Ready → s.block.div ≠ 0#5 →
      exec .hwtick s = .next
        { s with block := { s.block with div := BitVec.ofNat 5 ((s.block.div.toNat + 1) % 26) }, label := none }) ∧
    (s.block.Ready → s.block.div = 0#5 →
      ∃ t, exec .evTick s = .next t ∧
        exec .hwtick s = .next { t with block := { t.block with div := 1#5 } })

/-! ## The rows of the transition table -/

/-- R71, R75, R84, R88 and R93: ADVANCE, as the command stimulus and as the event. It starts forward motion from rest,
brakes reverse motion and is a no-op elsewhere; only `STATE` can change and nothing is emitted. After a start from rest the
output keeps its value until the first TICK: over any words of the `STIM` port without a reset and without a HWTICK that
meets `DIV = 0`, and over any events without a reset and without EV_TICK. -/
def Obligations.AdvanceRows : Prop :=
  decode (.evt 0b00#2) = .ok .evAdvance ∧
  (∀ (s t : State) (i : Instr), s.block.ReadyIn .stopped → (i = .cmdAdvance ∨ i = .evAdvance) → exec i s = .next t →
    (∀ xs : List Input, (∀ x ∈ xs, x ≠ .reset) →
      (∀ pre post, xs = pre ++ .word 0b001#3 :: post → (runFrom t.block pre).block.div ≠ 0#5) →
        (runFrom t.block xs).block.outAmp = s.block.outAmp ∧ (runFrom t.block xs).block.outPol = s.block.outPol ∧
        (runFrom t.block xs).emissions = []) ∧
    (∀ es : List FsmInput, (∀ x ∈ es, x ≠ .reset ∧ x ≠ .word 0b11#2) →
        (runEvents t.block es).block.outAmp = s.block.outAmp ∧ (runEvents t.block es).block.outPol = s.block.outPol ∧
        (runEvents t.block es).emissions = [])) ∧
  ∀ (s : State) (m : MotorState) (i : Instr), s.block.ReadyIn m → (i = .cmdAdvance ∨ i = .evAdvance) →
    exec i s = .next
      { s with
        block := { s.block with
          state := match m with
            | .stopped => 0b001#3
            | .forward => 0b001#3
            | .brakingForward => 0b010#3
            | .reverse => 0b100#3
            | .brakingReverse => 0b100#3 },
        label := none }

/-- R72, R76, R80, R85, R89 and R94: RETREAT, as the command stimulus and as the event. It starts reverse motion from rest,
brakes forward motion and is a no-op elsewhere. -/
def Obligations.RetreatRows : Prop :=
  decode (.evt 0b01#2) = .ok .evRetreat ∧
  ∀ (s : State) (m : MotorState) (i : Instr), s.block.ReadyIn m → (i = .cmdRetreat ∨ i = .evRetreat) →
    exec i s = .next
      { s with
        block := { s.block with
          state := match m with
            | .stopped => 0b011#3
            | .forward => 0b010#3
            | .brakingForward => 0b010#3
            | .reverse => 0b011#3
            | .brakingReverse => 0b100#3 },
        label := none }

/-- R73, R77, R81, R86, R90 and R95: STOP, as the command stimulus and as the event. It never starts motion, and it brakes
in either direction. It is the only command that does: ADVANCE does not brake forward motion, nor RETREAT reverse motion. -/
def Obligations.StopRows : Prop :=
  decode (.evt 0b10#2) = .ok .evStop ∧
  (∀ (s : State) (m : MotorState) (i : Instr), s.block.ReadyIn m → (i = .cmdStop ∨ i = .evStop) →
    exec i s = .next
      { s with
        block := { s.block with
          state := match m with
            | .stopped => 0b000#3
            | .forward => 0b010#3
            | .brakingForward => 0b010#3
            | .reverse => 0b100#3
            | .brakingReverse => 0b100#3 },
        label := none }) ∧
  (∀ (s : State) (i : Instr), s.block.ReadyIn .forward → (i = .cmdAdvance ∨ i = .evAdvance) →
    exec i s = .next { s with label := none }) ∧
  (∀ (s : State) (i : Instr), s.block.ReadyIn .reverse → (i = .cmdRetreat ∨ i = .evRetreat) →
    exec i s = .next { s with label := none })

/-- R78, R82, R83, R87, R91, R92 and R96: the TICK event in each motion state. The emitted waveform is that of the index
before the row updates it, and the braking rows test that same index. -/
def Obligations.TickRows : Prop :=
  decode (.evt 0b11#2) = .ok .evTick ∧
  ∀ s : State,
    (s.block.ReadyIn .stopped → exec .evTick s = .next { s with label := none }) ∧
    (s.block.ReadyIn .forward ∨ (s.block.ReadyIn .brakingForward ∧ s.block.idx.toNat % 8 ≠ 0) →
      exec .evTick s = .next
        { s with
          block := { s.block with
            idx := BitVec.ofNat 5 ((s.block.idx.toNat + 1) % 32),
            outAmp := (movingWaveform s.block.idx).amp, outPol := (movingWaveform s.block.idx).pol },
          label := some (movingWaveform s.block.idx) }) ∧
    (s.block.ReadyIn .reverse ∨ (s.block.ReadyIn .brakingReverse ∧ s.block.idx.toNat % 8 ≠ 0) →
      exec .evTick s = .next
        { s with
          block := { s.block with
            idx := BitVec.ofNat 5 ((s.block.idx.toNat + 31) % 32),
            outAmp := (movingWaveform s.block.idx).amp, outPol := (movingWaveform s.block.idx).pol },
          label := some (movingWaveform s.block.idx) }) ∧
    ((s.block.ReadyIn .brakingForward ∨ s.block.ReadyIn .brakingReverse) ∧ s.block.idx.toNat % 8 = 0 →
      exec .evTick s = .next
        { s with
          block := { s.block with
            state := 0b000#3,
            outAmp := (parkingWaveform s.block.idx).amp, outPol := (parkingWaveform s.block.idx).pol },
          label := some (parkingWaveform s.block.idx) })

/-- R74: TICK at rest is a no-op, the divider still counts in the same step, and any number of TICK or STOP events leaves
the block at rest as it is. -/
def Obligations.RestIgnoresTicks : Prop :=
  ∀ s : State, s.block.ReadyIn .stopped →
    exec .evTick s = .next { s with label := none } ∧
    (s.block.div = 0#5 → exec .hwtick s = .next { s with block := { s.block with div := 1#5 }, label := none }) ∧
    ∀ es : List FsmInput, (∀ x ∈ es, x = .word 0b11#2 ∨ x = .word 0b10#2) →
      (runEvents s.block es).block = s.block ∧ (runEvents s.block es).emissions = []

/-- R97, R98 and R99: each command stimulus delivers its event to `Fsm`, keeps `DIV` and the outputs, and emits nothing; a
set `FAULT` and an illegal state come first. -/
def Obligations.CommandsDeliverTheirEvents : Prop :=
  decode (.stim 0b010#3) = .ok .cmdAdvance ∧ decode (.stim 0b011#3) = .ok .cmdRetreat ∧
  decode (.stim 0b100#3) = .ok .cmdStop ∧
  ∀ (i : Instr) (e : Event),
    ((i = .cmdAdvance ∧ e = .advance) ∨ (i = .cmdRetreat ∧ e = .retreat) ∨ (i = .cmdStop ∧ e = .stop)) →
    ∀ s : State,
      (s.block.fault ≠ none → exec i s = .next { s with label := none }) ∧
      (s.block.fault = none → (5 ≤ s.block.state.toNat ∨ 26 ≤ s.block.div.toNat) →
        exec i s = .next { s with block := { s.block with fault := some .illegalState }, label := none }) ∧
      (∀ m, s.block.ReadyIn m →
        exec i s = .next
          { s with
            block := { s.block with state := codeOf (fsm m s.block.idx e).state, idx := (fsm m s.block.idx e).idx },
            label := none })

/-! ## Frames and the owners of the registers -/

/-- The frame of the commands and of their events: `IDX`, `DIV`, both output registers and what waits on the ports are
unchanged and nothing is emitted, in every state; `FAULT` changes only from an illegal state (42_state_machine.md section 5,
which marks it as its own inference). -/
def Obligations.CommandFrame : Prop :=
  ∀ (i : Instr) (s t : State),
    (i = .cmdAdvance ∨ i = .cmdRetreat ∨ i = .cmdStop ∨ i = .evAdvance ∨ i = .evRetreat ∨ i = .evStop) →
    exec i s = .next t →
      t.block.idx = s.block.idx ∧ t.block.div = s.block.div ∧ t.block.outAmp = s.block.outAmp ∧
      t.block.outPol = s.block.outPol ∧ t.drive = s.drive ∧ t.input = s.input ∧ t.events = s.events ∧
      t.label = none ∧ (s.block.state.toNat ≤ 4 → s.block.div.toNat ≤ 25 → t.block.fault = s.block.fault)

/-- The frame of NOP, HWTICK and EV_TICK: NOP keeps every register but `FAULT`; EV_TICK keeps `DIV`; a HWTICK with `DIV` not
0 keeps every register but `DIV` and `FAULT`; all keep what waits on the ports, and `FAULT` changes only from an illegal
state (40_divider.md section 1, 42_state_machine.md sections 2 and 3). -/
def Obligations.DividerAndTickFrame : Prop :=
  ∀ (i : Instr) (s t : State), (i = .nop ∨ i = .hwtick ∨ i = .evTick) → exec i s = .next t →
    t.drive = s.drive ∧ t.input = s.input ∧ t.events = s.events ∧
    (s.block.state.toNat ≤ 4 → s.block.div.toNat ≤ 25 → t.block.fault = s.block.fault) ∧
    (i ≠ .hwtick → t.block.div = s.block.div) ∧
    (i = .nop ∨ (i = .hwtick ∧ s.block.div ≠ 0#5) →
      t.label = none ∧ t.block.state = s.block.state ∧ t.block.idx = s.block.idx ∧
      t.block.outAmp = s.block.outAmp ∧ t.block.outPol = s.block.outPol)

/-- The next step serves a reset. -/
def Sys2Proof.Claims.servesReset (s : State) : Prop :=
  (s.drive = .stim3 ∧ ∃ rest, s.input = .reset :: rest) ∨ (s.drive = .evt2 ∧ ∃ rest, s.events = .reset :: rest)

/-- The owners of the registers (10_state.md section 5): over every step, reset apart, only a HWTICK word changes `DIV`,
only an emission changes the output latch, and only an item that delivers an event changes `STATE` or `IDX`. -/
def Obligations.RegistersHaveOneOwner : Prop :=
  ∀ s t : State, ¬ Sys2Proof.Claims.servesReset s → step s = .next t →
    (t.block.div ≠ s.block.div → s.drive = .stim3 ∧ ∃ rest, s.input = .word 0b001#3 :: rest) ∧
    (t.block.outAmp ≠ s.block.outAmp ∨ t.block.outPol ≠ s.block.outPol → t.label ≠ none) ∧
    (t.block.state ≠ s.block.state ∨ t.block.idx ≠ s.block.idx →
      (s.drive = .stim3 → ∃ (w : StimWord) (rest : List Input),
        s.input = .word w :: rest ∧ w ≠ 0b000#3 ∧ (w = 0b001#3 → s.block.div = 0#5)) ∧
      (s.drive = .evt2 → ∃ (e : EvtWord) (rest : List FsmInput), s.events = .word e :: rest))

/-- No instruction reads the output latch: two blocks that differ only in what they drive take the same step, and emit the
same (10_state.md section 5). -/
def Obligations.OutputLatchIsNeverRead : Prop :=
  ∀ (i : Instr) (s t s' : State) (a : Amplitude) (p : Polarity), exec i s = .next s' →
    t = { s with block := { s.block with outAmp := a, outPol := p } } →
    ∃ t', exec i t = .next t' ∧ t'.label = s'.label ∧ t'.block.state = s'.block.state ∧
      t'.block.idx = s'.block.idx ∧ t'.block.div = s'.block.div ∧ t'.block.fault = s'.block.fault

/-- Nothing but the divider reads `DIV`: from two legal values of it, every other instruction takes the same step
(40_divider.md section 2, which marks it as its own inference). -/
def Obligations.OnlyTheDividerReadsDiv : Prop :=
  ∀ (i : Instr) (s s' : State) (d : DivCount), i ≠ .hwtick → s.block.div.toNat ≤ 25 → d.toNat ≤ 25 →
    exec i s = .next s' →
    exec i { s with block := { s.block with div := d } } =
      .next { s' with block := { s'.block with div := d } }

/-! ## Emission -/

/-- A step that emits leaves the emitted pair in the output latch, and a step that does not leaves the latch as it was
(41_waveform.md section 2; the label is the spec's decision D8). -/
def Obligations.LatchHoldsTheLastEmission : Prop :=
  ∀ s t : State, step s = .next t →
    (∀ o, t.label = some o → t.block.outAmp = o.amp ∧ t.block.outPol = o.pol) ∧
    (t.label = none → t.block.outAmp = s.block.outAmp ∧ t.block.outPol = s.block.outPol)

/-- What is ever emitted, and where (41_waveform.md section 2). An instruction emits exactly when it carries a TICK into a
ready block that is not at rest; it emits the moving waveform of the index in FORWARD, in REVERSE and in a braking state off
a boundary, and the parking waveform of the index in a braking state on a boundary. SPEC DECISION: the only other emission is
reset's, `parkingWaveform(0)`, by the spec's decision D9 (its own choice) and log entry 8, which puts it in reset's label. -/
def Obligations.WaveformsAreCalledOnlyByTheirRows : Prop :=
  (∀ (i : Instr) (s t : State) (o : Output), exec i s = .next t →
    (t.label = some o ↔
      (i = .evTick ∨ (i = .hwtick ∧ s.block.div = 0#5)) ∧
      (((s.block.ReadyIn .forward ∨ s.block.ReadyIn .reverse ∨
          ((s.block.ReadyIn .brakingForward ∨ s.block.ReadyIn .brakingReverse) ∧ s.block.idx.toNat % 8 ≠ 0)) ∧
        o = movingWaveform s.block.idx) ∨
       ((s.block.ReadyIn .brakingForward ∨ s.block.ReadyIn .brakingReverse) ∧ s.block.idx.toNat % 8 = 0 ∧
        o = parkingWaveform s.block.idx)))) ∧
  (∀ s t : State, Sys2Proof.Claims.servesReset s → step s = .next t → t.label = some (parkingWaveform 0#5))

/-! ## Invariants that every step keeps -/

/-- The numeric invariants are kept by every step, from every state that has them: `IDX` in 0 to 31, `DIV` in 0 to 25, a
legal `STATE`, `OUT_AMP` in 0 to 32 (10_state.md section 4; that every rule keeps all four is the spec's inference). -/
def Obligations.StepKeepsRanges : Prop :=
  ∀ s t : State, s.block.InRange → step s = .next t → t.block.InRange

/-- A ready block stays ready: no step raises a fault from a legal state without one (10_state.md section 4,
60_exceptions.md section 1; the spec's inference and decision D18). -/
def Obligations.StepKeepsReady : Prop :=
  ∀ s t : State, s.block.Ready → step s = .next t → t.block.Ready

/-- The whole invariant is kept by every step: ready, in range, at rest only on a full-step boundary, and the output in
step with the position (10_state.md section 4 and 42_state_machine.md section 2; that the output tracks the position is this
model's inference from the rows). -/
def Obligations.StepKeepsSound : Prop :=
  ∀ s t : State, s.block.Sound → step s = .next t → t.block.Sound

/-- The reset state has the invariant (10_state.md sections 4 and 6). -/
def Obligations.ResetIsSound : Prop :=
  State.reset.block.Sound

/-- Every state that any sequence of inputs leads to from reset has the invariant: no run from reset faults, leaves a range
or parks between full steps, on the block's port and where `Fsm` is driven (10_state.md section 4). -/
def Obligations.EveryReachableStateIsSound : Prop :=
  ∀ (n : Nat) (d : Format) (xs : List Input) (es : List FsmInput) (t : State),
    Sys2Proof.core.run n { State.reset with drive := d, input := xs, events := es } = .next t → t.block.Sound

/-- Motion starts on a full-step boundary: from a block that rests only on boundaries, a step out of STOPPED leaves the
index, which is a multiple of 8 (10_state.md section 4, which marks it as its own inference). -/
def Obligations.MotionStartsOnABoundary : Prop :=
  ∀ s t : State, s.block.ParksOnBoundary → step s = .next t →
    s.block.state = codeOf .stopped → t.block.state ≠ codeOf .stopped →
    t.block.idx = s.block.idx ∧ t.block.idx.toNat % 8 = 0 ∧
    (t.block.state = codeOf .forward ∨ t.block.state = codeOf .reverse)

/-! ## Whole-machine laws of the Motion State Machine -/

/-- Commands are idempotent: the same command, or the same event of a command, given twice has the effect of one, in every
state (42_state_machine.md section 5, which marks it as its own inference). -/
def Obligations.CommandsAreIdempotent : Prop :=
  ∀ (i : Instr) (s t : State),
    (i = .cmdAdvance ∨ i = .cmdRetreat ∨ i = .cmdStop ∨ i = .evAdvance ∨ i = .evRetreat ∨ i = .evStop) →
    exec i s = .next t → exec i t = .next t

/-- Direction changes only through STOPPED: no instruction leads from a forward state to a reverse one or back; in a forward
state the index stays or goes up by one modulo 32, in a reverse state it stays or goes down by one (42_state_machine.md
section 5, which marks it as its own inference). -/
def Obligations.DirectionChangesOnlyThroughStopped : Prop :=
  ∀ (i : Instr) (s t : State), exec i s = .next t →
    ((s.block.state = codeOf .forward ∨ s.block.state = codeOf .brakingForward) →
      (t.block.state = codeOf .forward ∨ t.block.state = codeOf .brakingForward ∨ t.block.state = codeOf .stopped) ∧
      (t.block.idx = s.block.idx ∨ t.block.idx.toNat = (s.block.idx.toNat + 1) % 32)) ∧
    ((s.block.state = codeOf .reverse ∨ s.block.state = codeOf .brakingReverse) →
      (t.block.state = codeOf .reverse ∨ t.block.state = codeOf .brakingReverse ∨ t.block.state = codeOf .stopped) ∧
      (t.block.idx = s.block.idx ∨ t.block.idx.toNat = (s.block.idx.toNat + 31) % 32))

/-- The order of two commands that wait together matters: from rest, ADVANCE then RETREAT brakes forward motion, RETREAT
then ADVANCE brakes reverse motion (60_exceptions.md section 2, which marks it as its own inference). -/
def Obligations.OrderOfCommandsMatters : Prop :=
  ∀ b : Block, b.ReadyIn .stopped →
    (runFrom b [.word 0b010#3, .word 0b011#3]).block = { b with state := 0b010#3 } ∧
    (runFrom b [.word 0b011#3, .word 0b010#3]).block = { b with state := 0b100#3 }

/-- A hardware tick that produces no TICK may be served before or after a command that waits with it: the block ends the
same (60_exceptions.md section 2, decision D10; this model's inference). -/
def Obligations.SilentHwtickCommutesWithCommands : Prop :=
  ∀ (b : Block) (w : StimWord), (w = 0b010#3 ∨ w = 0b011#3 ∨ w = 0b100#3) → b.div ≠ 0#5 →
    (runFrom b [.word 0b001#3, .word w]).block = (runFrom b [.word w, .word 0b001#3]).block

/-! ## Laws over sequences of steps -/

/-- The number of TICKs among `n` hardware ticks from `DIV = d`, by the counting law of 40_divider.md section 2. -/
def Sys2Proof.Claims.ticksAmong (d n : Nat) : Nat :=
  if n ≤ (26 - d) % 26 then 0 else (n - 1 - (26 - d) % 26) / 26 + 1

/-- The inputs of `n` hardware ticks, `HWTICK*n`. -/
def Sys2Proof.Claims.hwticks (n : Nat) : List Input :=
  List.replicate n (.word 0b001#3)

/-- The sequence of `n` TICK events, `EV_TICK*n`. -/
def Sys2Proof.Claims.ticks (n : Nat) : List FsmInput :=
  List.replicate n (.word 0b11#2)

/-- `DIV` after any inputs without a reset is its start plus the number of HWTICK words, modulo 26; other words between them
change nothing of it (40_divider.md section 2, which marks it as its own inference). -/
def Obligations.DividerCountsHwticks : Prop :=
  ∀ (b : Block) (xs : List Input), b.Ready → (∀ x ∈ xs, x ≠ .reset) →
    (runFrom b xs).block.div.toNat = (b.div.toNat + xs.count (.word 0b001#3)) % 26

/-- The counting law, seen in a moving block: `n` hardware ticks make the counted number of TICKs, each of which emits once
and moves the index by one step (40_divider.md section 2, which marks it as its own inference). -/
def Obligations.HwticksMoveAtTheStepRate : Prop :=
  ∀ (b : Block) (n : Nat),
    (b.ReadyIn .forward →
      (runFrom b (Sys2Proof.Claims.hwticks n)).emissions.length = Sys2Proof.Claims.ticksAmong b.div.toNat n ∧
      (runFrom b (Sys2Proof.Claims.hwticks n)).block.state = codeOf .forward ∧
      (runFrom b (Sys2Proof.Claims.hwticks n)).block.idx.toNat =
        (b.idx.toNat + Sys2Proof.Claims.ticksAmong b.div.toNat n) % 32) ∧
    (b.ReadyIn .reverse →
      (runFrom b (Sys2Proof.Claims.hwticks n)).emissions.length = Sys2Proof.Claims.ticksAmong b.div.toNat n ∧
      (runFrom b (Sys2Proof.Claims.hwticks n)).block.state = codeOf .reverse ∧
      (runFrom b (Sys2Proof.Claims.hwticks n)).block.idx.toNat =
        (b.idx.toNat + 31 * Sys2Proof.Claims.ticksAmong b.div.toNat n) % 32)

/-- The pseudo-instruction `STEP*k`: the hardware ticks it expands to do exactly what `k` TICK events do to `Fsm`, emission
for emission, and leave `DIV = 1` (30_encoding.md section 4; its expansion is the spec's inference and decision D19). -/
def Obligations.StepExpansionIsExactlyKTicks : Prop :=
  ∀ (b : Block) (k : Nat), b.Ready → 1 ≤ k →
    (runFrom b (stimItems (expandLine b.div.toNat (.step k)).1)).block =
      { (runEvents b (Sys2Proof.Claims.ticks k)).block with div := 1#5 } ∧
    (runFrom b (stimItems (expandLine b.div.toNat (.step k)).1)).emissions =
      (runEvents b (Sys2Proof.Claims.ticks k)).emissions

/-- The assembler's tracked `DIV` is the block's: after the items of any line of a program for a port, which that port
carries whole, the value it goes on with is the value of `DIV`, and no word of the line is refused (30_encoding.md section 4,
decision D19). -/
def Obligations.AssemblerTracksTheDivider : Prop :=
  ∀ (b : Block) (l : Line), b.Ready → l.wellFormed = true →
    (l.fitsFormat .stim3 = true →
      (stimItems (expandLine b.div.toNat l).1).length = (expandLine b.div.toNat l).1.length ∧
      (runFrom b (stimItems (expandLine b.div.toNat l).1)).block.div.toNat = (expandLine b.div.toNat l).2 ∧
      (runFrom b (stimItems (expandLine b.div.toNat l).1)).clean) ∧
    (l.fitsFormat .evt2 = true →
      (evtItems (expandLine b.div.toNat l).1).length = (expandLine b.div.toNat l).1.length ∧
      (runEvents b (evtItems (expandLine b.div.toNat l).1)).block.div.toNat = (expandLine b.div.toNat l).2 ∧
      (runEvents b (evtItems (expandLine b.div.toNat l).1)).clean)

/-- `n` TICKs in a moving state go `n` steps round the cycle and emit the moving waveforms of the indices passed, the first
that of the start; 32 of them come back to the start (42_state_machine.md section 2 and 95_test_vectors.md section L1). -/
def Obligations.TicksGoRoundTheCycle : Prop :=
  ∀ (b : Block) (n : Nat),
    (b.ReadyIn .forward →
      (runEvents b (Sys2Proof.Claims.ticks n)).emissions =
        (List.range n).map (fun j => movingWaveform (BitVec.ofNat 5 (b.idx.toNat + j))) ∧
      (runEvents b (Sys2Proof.Claims.ticks n)).block.idx.toNat = (b.idx.toNat + n) % 32 ∧
      (runEvents b (Sys2Proof.Claims.ticks 32)).block.idx = b.idx ∧
      (runEvents b (Sys2Proof.Claims.ticks n)).block.state = codeOf .forward) ∧
    (b.ReadyIn .reverse →
      (runEvents b (Sys2Proof.Claims.ticks n)).emissions =
        (List.range n).map (fun j => movingWaveform (BitVec.ofNat 5 (b.idx.toNat + 31 * j))) ∧
      (runEvents b (Sys2Proof.Claims.ticks n)).block.idx.toNat = (b.idx.toNat + 31 * n) % 32 ∧
      (runEvents b (Sys2Proof.Claims.ticks 32)).block.idx = b.idx ∧
      (runEvents b (Sys2Proof.Claims.ticks n)).block.state = codeOf .reverse)

/-- Symmetry under direction reversal, in the one case the machine can run: from rest, `n` steps forward to a full-step
boundary, a brake that parks at once, and `n` steps back return to the start index (90_conflicts.md C3). -/
def Obligations.ForwardThenBackReturns : Prop :=
  ∀ (b : Block) (n : Nat), b.ReadyIn .stopped → (b.idx.toNat + n) % 8 = 0 →
    (runEvents b
      (.word 0b00#2 :: Sys2Proof.Claims.ticks n ++ [.word 0b01#2, .word 0b11#2, .word 0b01#2] ++
        Sys2Proof.Claims.ticks n)).block.idx = b.idx

/-- Braking always ends, on the next full-step boundary in the direction of motion, after exactly the stated number of
TICKs: `(8 - i mod 8) mod 8` moving ones going forward, `i mod 8` going backward, each emitting the moving waveform of the
index it leaves, and then one parking TICK; until then the block still brakes (70_reset_and_hazards.md section 3, which
marks it as its own inference). -/
def Obligations.BrakingParksOnTheNextBoundary : Prop :=
  ∀ (b : Block) (k : Nat),
    (b.ReadyIn .brakingForward → k = (8 - b.idx.toNat % 8) % 8 →
      (runEvents b (Sys2Proof.Claims.ticks (k + 1))).block =
        { b with
          state := 0b000#3, idx := BitVec.ofNat 5 (b.idx.toNat + k), outAmp := 16#6,
          outPol := (parkingWaveform (BitVec.ofNat 5 (b.idx.toNat + k))).pol } ∧
      (b.idx.toNat + k) % 8 = 0 ∧
      (runEvents b (Sys2Proof.Claims.ticks (k + 1))).emissions =
        (List.range k).map (fun j => movingWaveform (BitVec.ofNat 5 (b.idx.toNat + j))) ++
          [parkingWaveform (BitVec.ofNat 5 (b.idx.toNat + k))] ∧
      ∀ n ≤ k, (runEvents b (Sys2Proof.Claims.ticks n)).block.state = codeOf .brakingForward) ∧
    (b.ReadyIn .brakingReverse → k = b.idx.toNat % 8 →
      (runEvents b (Sys2Proof.Claims.ticks (k + 1))).block =
        { b with
          state := 0b000#3, idx := BitVec.ofNat 5 (b.idx.toNat - k), outAmp := 16#6,
          outPol := (parkingWaveform (BitVec.ofNat 5 (b.idx.toNat - k))).pol } ∧
      (b.idx.toNat - k) % 8 = 0 ∧
      (runEvents b (Sys2Proof.Claims.ticks (k + 1))).emissions =
        (List.range k).map (fun j => movingWaveform (BitVec.ofNat 5 (b.idx.toNat - j))) ++
          [parkingWaveform (BitVec.ofNat 5 (b.idx.toNat - k))] ∧
      ∀ n ≤ k, (runEvents b (Sys2Proof.Claims.ticks n)).block.state = codeOf .brakingReverse)

/-- Braking cannot be cancelled by any command: braking forward, every command is a no-op, and whatever events without a
reset come between them, the first `(8 - i mod 8) mod 8` TICK events move on and the block still brakes, and the next one
stops it on the boundary. The same in reverse, with `i mod 8` TICK events. The rows are 42_state_machine.md section 2; the
numbers of TICKs are those of 70_reset_and_hazards.md section 3, which marks them as its own inference. -/
def Obligations.BrakingCannotBeCancelled : Prop :=
  (∀ (s : State) (i : Instr), (s.block.ReadyIn .brakingForward ∨ s.block.ReadyIn .brakingReverse) →
    (i = .cmdAdvance ∨ i = .cmdRetreat ∨ i = .cmdStop ∨ i = .evAdvance ∨ i = .evRetreat ∨ i = .evStop) →
    exec i s = .next { s with label := none }) ∧
  ∀ (b : Block) (es : List FsmInput), (∀ x ∈ es, x ≠ .reset) →
    (b.ReadyIn .brakingForward →
      (es.count (.word 0b11#2) ≤ (8 - b.idx.toNat % 8) % 8 →
        (runEvents b es).block.state = codeOf .brakingForward ∧
        (runEvents b es).block.idx.toNat = (b.idx.toNat + es.count (.word 0b11#2)) % 32) ∧
      (es.count (.word 0b11#2) = (8 - b.idx.toNat % 8) % 8 →
        (runEvents b (es ++ [.word 0b11#2])).block.state = codeOf .stopped ∧
        (runEvents b (es ++ [.word 0b11#2])).block.idx.toNat % 8 = 0)) ∧
    (b.ReadyIn .brakingReverse →
      (es.count (.word 0b11#2) ≤ b.idx.toNat % 8 →
        (runEvents b es).block.state = codeOf .brakingReverse ∧
        (runEvents b es).block.idx.toNat = b.idx.toNat - es.count (.word 0b11#2)) ∧
      (es.count (.word 0b11#2) = b.idx.toNat % 8 →
        (runEvents b (es ++ [.word 0b11#2])).block.state = codeOf .stopped ∧
        (runEvents b (es ++ [.word 0b11#2])).block.idx.toNat % 8 = 0))

/-- From any ready block that brakes, 208 hardware ticks (8 TICKs) are enough to stop it on a full-step boundary, whatever
`DIV` is (70_reset_and_hazards.md section 3 with 40_divider.md section 2; this model's inference). -/
def Obligations.BrakingEndsWithin208Hwticks : Prop :=
  ∀ b : Block, (b.ReadyIn .brakingForward ∨ b.ReadyIn .brakingReverse) →
    (runFrom b (Sys2Proof.Claims.hwticks 208)).block.state = codeOf .stopped ∧
    (runFrom b (Sys2Proof.Claims.hwticks 208)).block.idx.toNat % 8 = 0 ∧
    (runFrom b (Sys2Proof.Claims.hwticks 208)).block.div = b.div

/-! ## Runs and the environment -/

/-- Every input but a reserved word. -/
def Sys2Proof.Claims.isAccepted : Input → Bool
  | .word w => decide (w.toNat ≤ 4)
  | .reset => true

/-- A refused word has no step: the block and the labels of a run are those of the run without its reserved words, and the
run is marked refused exactly when it has one (60_exceptions.md section 1, decision D18). -/
def Obligations.RefusedWordsLeaveNoTrace : Prop :=
  ∀ (b : Block) (xs : List Input),
    (runFrom b xs).block = (runFrom b (xs.filter Sys2Proof.Claims.isAccepted)).block ∧
    (runFrom b xs).labels = (runFrom b (xs.filter Sys2Proof.Claims.isAccepted)).labels ∧
    ((runFrom b xs).refused = true ↔ ∃ w : StimWord, 5 ≤ w.toNat ∧ .word w ∈ xs)

/-- The machine's steps follow the run of the block: over inputs none of which is a reserved word, the machine answers a
next state at every step, serves exactly those inputs, and ends with the block and the last label of the run; the same over
events that drive `Fsm` (00_scope.md section 4, 92_eei_decisions.md D1 and D21). The clauses on the items that still wait
are the model's choice: log entries 1 and 13. -/
def Obligations.MachineStepsFollowTheRun : Prop :=
  (∀ (s : State) (xs rest : List Input), s.drive = .stim3 → s.input = xs ++ rest →
    (∀ w : StimWord, .word w ∈ xs → w.toNat ≤ 4) →
    ∃ t, Sys2Proof.core.run xs.length s = .next t ∧ t.input = rest ∧ t.block = (runFrom s.block xs).block ∧
      t.label = ((runFrom s.block xs).labels.getLast?).getD s.label) ∧
  (∀ (s : State) (es rest : List FsmInput), s.drive = .evt2 → s.events = es ++ rest →
    ∃ t, Sys2Proof.core.run es.length s = .next t ∧ t.events = rest ∧ t.block = (runEvents s.block es).block ∧
      t.label = ((runEvents s.block es).labels.getLast?).getD s.label)

/-- The environment's orders (60_exceptions.md section 2, decision D10; which stimuli wait is log entry 15). With
`TICK_FIRST` off, an admitted order is any permutation of the waiting stimuli. With it on, it is a permutation in which no
command stands before a HWTICK. Some order is always admitted. -/
def Obligations.ServiceOrdersExist : Prop :=
  (∀ (env : Config.Environment) (waiting order : List Instr), env.tickFirst = false →
    (ServiceOrder env waiting order ↔ order.Perm waiting)) ∧
  (∀ (env : Config.Environment) (waiting order : List Instr), env.tickFirst = true →
    (ServiceOrder env waiting order ↔
      order.Perm waiting ∧ ∀ before after, order = before ++ .hwtick :: after →
        ∀ c ∈ before, c ≠ .cmdAdvance ∧ c ≠ .cmdRetreat ∧ c ≠ .cmdStop)) ∧
  (∀ (env : Config.Environment) (waiting : List Instr), ∃ order, ServiceOrder env waiting order)
end

