-- ==== Sys2Proof/Laws/Decode.lean ====
section
/-! SUPPORT. What the decoder and the encoder can do, said once (30_encoding.md R49 to R51). -/

namespace Sys2Proof

/-- Decoding an instruction's word gives the instruction. -/
@[simp] theorem decode_encode (i : Instr) : decode (encode i) = .ok i := by
  cases i <;> rfl

/-- The word of an instruction stands on its format's port. -/
@[simp] theorem encode_format (i : Instr) : (encode i).format = i.format := by
  cases i <;> rfl

/-- What the `STIM` decoder can answer: one of five stimuli, or the refusal of a word above 4. -/
theorem decodeStim_cases (w : StimWord) :
    (∃ i, decodeStim w = .ok i ∧ encode i = .stim w ∧ w.toNat ≤ 4) ∨
      (decodeStim w = .error (.reservedStimulus w) ∧ 5 ≤ w.toNat) := by
  unfold decodeStim
  split_ifs with h0 h1 h2 h3 h4
  · exact .inl ⟨_, rfl, by rw [h0]; rfl, by rw [h0]; decide⟩
  · exact .inl ⟨_, rfl, by rw [h1]; rfl, by rw [h1]; decide⟩
  · exact .inl ⟨_, rfl, by rw [h2]; rfl, by rw [h2]; decide⟩
  · exact .inl ⟨_, rfl, by rw [h3]; rfl, by rw [h3]; decide⟩
  · exact .inl ⟨_, rfl, by rw [h4]; rfl, by rw [h4]; decide⟩
  · refine .inr ⟨rfl, ?_⟩
    bv_omega

/-- The word of the event an event code stands for is that code. -/
theorem encode_decodeEvt (e : EvtWord) : encode (decodeEvt e) = .evt e := by
  revert e
  decide +revert

/-- What the decoder can answer on a port word. -/
theorem decode_cases (p : PortWord) :
    (∃ i, decode p = .ok i ∧ encode i = p) ∨
      (∃ w : StimWord, p = .stim w ∧ 5 ≤ w.toNat ∧ decode p = .error (.reservedStimulus w)) := by
  cases p with
  | stim w =>
    rcases decodeStim_cases w with ⟨i, h, hw, -⟩ | ⟨h, hw⟩
    · exact .inl ⟨i, h, hw⟩
    · exact .inr ⟨w, rfl, hw, h⟩
  | evt e => exact .inl ⟨decodeEvt e, rfl, encode_decodeEvt e⟩

end Sys2Proof
end

