-- ==== Sys2Proof/Laws/State.lean ====
section
/-! SUPPORT. One lemma per field per update of the state, so that no proof unfolds a record update. -/

namespace Sys2Proof.Machine

/-! Fields after `Block.setMotion`. -/

@[simp] theorem Block.setMotion_state (b : Block) (m : MotorState) (i : StepIndex) : (b.setMotion m i).state = codeOf m := rfl
@[simp] theorem Block.setMotion_idx (b : Block) (m : MotorState) (i : StepIndex) : (b.setMotion m i).idx = i := rfl
@[simp] theorem Block.setMotion_div (b : Block) (m : MotorState) (i : StepIndex) : (b.setMotion m i).div = b.div := rfl
@[simp] theorem Block.setMotion_outAmp (b : Block) (m : MotorState) (i : StepIndex) : (b.setMotion m i).outAmp = b.outAmp := rfl
@[simp] theorem Block.setMotion_outPol (b : Block) (m : MotorState) (i : StepIndex) : (b.setMotion m i).outPol = b.outPol := rfl
@[simp] theorem Block.setMotion_fault (b : Block) (m : MotorState) (i : StepIndex) : (b.setMotion m i).fault = b.fault := rfl

/-! Fields after `Block.setDiv`. -/

@[simp] theorem Block.setDiv_state (b : Block) (d : DivCount) : (b.setDiv d).state = b.state := rfl
@[simp] theorem Block.setDiv_idx (b : Block) (d : DivCount) : (b.setDiv d).idx = b.idx := rfl
@[simp] theorem Block.setDiv_div (b : Block) (d : DivCount) : (b.setDiv d).div = d := rfl
@[simp] theorem Block.setDiv_outAmp (b : Block) (d : DivCount) : (b.setDiv d).outAmp = b.outAmp := rfl
@[simp] theorem Block.setDiv_outPol (b : Block) (d : DivCount) : (b.setDiv d).outPol = b.outPol := rfl
@[simp] theorem Block.setDiv_fault (b : Block) (d : DivCount) : (b.setDiv d).fault = b.fault := rfl

/-! Fields after `Block.emit`. -/

@[simp] theorem Block.emit_state (b : Block) (o : Output) : (b.emit o).state = b.state := rfl
@[simp] theorem Block.emit_idx (b : Block) (o : Output) : (b.emit o).idx = b.idx := rfl
@[simp] theorem Block.emit_div (b : Block) (o : Output) : (b.emit o).div = b.div := rfl
@[simp] theorem Block.emit_outAmp (b : Block) (o : Output) : (b.emit o).outAmp = o.amp := rfl
@[simp] theorem Block.emit_outPol (b : Block) (o : Output) : (b.emit o).outPol = o.pol := rfl
@[simp] theorem Block.emit_fault (b : Block) (o : Output) : (b.emit o).fault = b.fault := rfl

/-! Fields after `Block.raiseFault`. -/

@[simp] theorem Block.raiseFault_state (b : Block) (r : Fault) : (b.raiseFault r).state = b.state := rfl
@[simp] theorem Block.raiseFault_idx (b : Block) (r : Fault) : (b.raiseFault r).idx = b.idx := rfl
@[simp] theorem Block.raiseFault_div (b : Block) (r : Fault) : (b.raiseFault r).div = b.div := rfl
@[simp] theorem Block.raiseFault_outAmp (b : Block) (r : Fault) : (b.raiseFault r).outAmp = b.outAmp := rfl
@[simp] theorem Block.raiseFault_outPol (b : Block) (r : Fault) : (b.raiseFault r).outPol = b.outPol := rfl
@[simp] theorem Block.raiseFault_fault (b : Block) (r : Fault) : (b.raiseFault r).fault = some r := rfl

/-! Fields after `Block.emitOption`: only the latch can change. -/

@[simp] theorem Block.emitOption_state (b : Block) (o : Option Output) : (b.emitOption o).state = b.state := by cases o <;> rfl
@[simp] theorem Block.emitOption_idx (b : Block) (o : Option Output) : (b.emitOption o).idx = b.idx := by cases o <;> rfl
@[simp] theorem Block.emitOption_div (b : Block) (o : Option Output) : (b.emitOption o).div = b.div := by cases o <;> rfl
@[simp] theorem Block.emitOption_some_outAmp (b : Block) (o : Output) : (b.emitOption (some o)).outAmp = o.amp := rfl
@[simp] theorem Block.emitOption_some_outPol (b : Block) (o : Output) : (b.emitOption (some o)).outPol = o.pol := rfl
@[simp] theorem Block.emitOption_fault (b : Block) (o : Option Output) : (b.emitOption o).fault = b.fault := by cases o <;> rfl
@[simp] theorem Block.emitOption_none (b : Block) : b.emitOption none = b := rfl

/-! Fields after `State.commit`, `State.applyReset` and `State.takeItem`. -/

@[simp] theorem State.commit_block (s : State) (r : Block × Option Output) : (s.commit r).block = r.1 := rfl
@[simp] theorem State.commit_drive (s : State) (r : Block × Option Output) : (s.commit r).drive = s.drive := rfl
@[simp] theorem State.commit_input (s : State) (r : Block × Option Output) : (s.commit r).input = s.input := rfl
@[simp] theorem State.commit_events (s : State) (r : Block × Option Output) : (s.commit r).events = s.events := rfl
@[simp] theorem State.commit_label (s : State) (r : Block × Option Output) : (s.commit r).label = r.2 := rfl
@[simp] theorem State.applyReset_block (s : State) : s.applyReset.block = (resetBlock s.block).1 := rfl
@[simp] theorem State.applyReset_drive (s : State) : s.applyReset.drive = s.drive := rfl
@[simp] theorem State.applyReset_input (s : State) : s.applyReset.input = s.input := rfl
@[simp] theorem State.applyReset_events (s : State) : s.applyReset.events = s.events := rfl
@[simp] theorem State.applyReset_label (s : State) : s.applyReset.label = (resetBlock s.block).2 := rfl
@[simp] theorem State.takeItem_block (s : State) : s.takeItem.block = s.block := by
  unfold State.takeItem
  split <;> rfl
@[simp] theorem State.takeItem_drive (s : State) : s.takeItem.drive = s.drive := by
  unfold State.takeItem
  split <;> rfl
@[simp] theorem State.takeItem_label (s : State) : s.takeItem.label = s.label := by
  unfold State.takeItem
  split <;> rfl
theorem State.takeItem_of_stim {s : State} (h : s.drive = .stim3) : s.takeItem = { s with input := s.input.tail } := by
  simp [State.takeItem, h]
theorem State.takeItem_of_evt {s : State} (h : s.drive = .evt2) : s.takeItem = { s with events := s.events.tail } := by
  simp [State.takeItem, h]

/-! Fields after `State.present`, for a word of each port. -/

@[simp] theorem State.present_stim_block (s : State) (w : StimWord) : (s.present (.stim w)).block = s.block := rfl
@[simp] theorem State.present_stim_drive (s : State) (w : StimWord) : (s.present (.stim w)).drive = .stim3 := rfl
@[simp] theorem State.present_stim_input (s : State) (w : StimWord) : (s.present (.stim w)).input = .word w :: s.input := rfl
@[simp] theorem State.present_stim_events (s : State) (w : StimWord) : (s.present (.stim w)).events = s.events := rfl
@[simp] theorem State.present_stim_label (s : State) (w : StimWord) : (s.present (.stim w)).label = s.label := rfl
@[simp] theorem State.present_evt_block (s : State) (e : EvtWord) : (s.present (.evt e)).block = s.block := rfl
@[simp] theorem State.present_evt_drive (s : State) (e : EvtWord) : (s.present (.evt e)).drive = .evt2 := rfl
@[simp] theorem State.present_evt_input (s : State) (e : EvtWord) : (s.present (.evt e)).input = s.input := rfl
@[simp] theorem State.present_evt_events (s : State) (e : EvtWord) : (s.present (.evt e)).events = .word e :: s.events := rfl
@[simp] theorem State.present_evt_label (s : State) (e : EvtWord) : (s.present (.evt e)).label = s.label := rfl

/-! Fields after `Run.add`. -/

@[simp] theorem Run.add_block (r : Run) (x : Block × Option Output) : (r.add x).block = x.1 := rfl
@[simp] theorem Run.add_labels (r : Run) (x : Block × Option Output) : (r.add x).labels = r.labels ++ [x.2] := rfl
@[simp] theorem Run.add_refused (r : Run) (x : Block × Option Output) : (r.add x).refused = r.refused := rfl

end Sys2Proof.Machine
end

