-- ==== Sys2Proof/Laws/Ops.lean ====
section
/-! SUPPORT. One lemma for each shared operation that says what it can do. -/

namespace Sys2Proof.Machine

/-! The derived operands. -/

@[simp] theorem motorOf_codeOf (m : MotorState) : motorOf (codeOf m) = some m := by
  cases m <;> rfl

/-- Two motion states with one code are one state. -/
theorem codeOf_injective {m n : MotorState} (h : codeOf m = codeOf n) : m = n := by
  have := congrArg motorOf h
  simpa using this

/-- A code that stands for a motion state is that state's code. -/
theorem codeOf_of_motorOf {c : StateCode} {m : MotorState} (h : motorOf c = some m) : codeOf m = c := by
  revert h
  cases m <;> revert c <;> decide

/-- The codes 0 to 4 are the legal ones. -/
theorem motorOf_none_iff (c : StateCode) : motorOf c = none ↔ 5 ≤ c.toNat := by
  revert c
  decide

/-- A legal code is the code of a motion state. -/
theorem exists_codeOf {c : StateCode} (h : c.toNat ≤ 4) : ∃ m, c = codeOf m := by
  cases hm : motorOf c with
  | none => exact absurd ((motorOf_none_iff c).mp hm) (by omega)
  | some m => exact ⟨m, (codeOf_of_motorOf hm).symm⟩

theorem codeOf_toNat_le (m : MotorState) : (codeOf m).toNat ≤ 4 := by
  cases m <;> decide

theorem divLegal_iff (d : DivCount) : divLegal d = true ↔ d.toNat ≤ 25 := by
  simp [divLegal, divisor, Nat.lt_succ_iff]

theorem boundary_iff (i : StepIndex) : boundary i = true ↔ i.toNat % 8 = 0 := by
  simp [boundary, stepsPerQuadrant]

theorem idxForward_toNat (i : StepIndex) : (idxForward i).toNat = (i.toNat + 1) % 32 := by
  simp only [idxForward, nSteps, BitVec.toNat_ofNat]
  omega

theorem idxBackward_toNat (i : StepIndex) : (idxBackward i).toNat = (i.toNat + 31) % 32 := by
  simp only [idxBackward, nSteps, BitVec.toNat_ofNat]
  omega

theorem divNext_toNat (d : DivCount) : (divNext d).toNat = (d.toNat + 1) % 26 := by
  simp only [divNext, divisor, BitVec.toNat_ofNat]
  omega

/-- Stepping forward is adding one to the 5-bit index. -/
theorem idxForward_eq (i : StepIndex) : idxForward i = i + 1#5 := by
  apply BitVec.eq_of_toNat_eq
  simp [idxForward_toNat, BitVec.toNat_add]

/-- Stepping backward is subtracting one from the 5-bit index. -/
theorem idxBackward_eq (i : StepIndex) : idxBackward i = i - 1#5 := by
  apply BitVec.eq_of_toNat_eq
  simp only [idxBackward_toNat, BitVec.toNat_sub, BitVec.toNat_ofNat]
  omega

/-! Taking a fault, and the order of a step's outcomes. -/

/-- With `FAULT` set, a step keeps the block and emits nothing (R18). -/
theorem guarded_of_fault {rule : MotorState → Block → Block × Option Output} {b : Block} {r : Fault}
    (h : b.fault = some r) : guarded rule b = (b, none) := by
  simp [guarded, h]

/-- From an illegal state, a step raises the fault (R107). -/
theorem guarded_of_illegal {rule : MotorState → Block → Block × Option Output} {b : Block}
    (h : b.fault = none) (hl : 5 ≤ b.state.toNat ∨ 26 ≤ b.div.toNat) :
    guarded rule b = (b.raiseFault .illegalState, none) := by
  unfold guarded
  rw [h]
  cases hm : motorOf b.state with
  | none => rfl
  | some m =>
    have hs : ¬ 5 ≤ b.state.toNat := fun hc => by
      have := (motorOf_none_iff b.state).mpr hc
      simp [hm] at this
    have hd : divLegal b.div = false := by
      rw [← Bool.not_eq_true, divLegal_iff]
      omega
    simp [hd]

/-- From a ready state, the instruction's rule acts (R112). -/
theorem guarded_of_readyIn {rule : MotorState → Block → Block × Option Output} {b : Block} {m : MotorState}
    (h : b.ReadyIn m) : guarded rule b = rule m b := by
  obtain ⟨hf, hs, hd⟩ := h
  simp [guarded, hf, hs, (divLegal_iff b.div).mpr hd]

/-- A ready block is ready in some motion state. -/
theorem Block.Ready.readyIn {b : Block} (h : b.Ready) : ∃ m, b.ReadyIn m := by
  obtain ⟨hf, hs, hd⟩ := h
  obtain ⟨m, hm⟩ := exists_codeOf hs
  exact ⟨m, hf, hm, hd⟩

theorem Block.ReadyIn.ready {b : Block} {m : MotorState} (h : b.ReadyIn m) : b.Ready :=
  ⟨h.1, h.2.1 ▸ codeOf_toNat_le m, h.2.2⟩

/-- Everything a guarded step can do. -/
theorem guarded_cases (rule : MotorState → Block → Block × Option Output) (b : Block) :
    (b.fault ≠ none ∧ guarded rule b = (b, none)) ∨
      (b.fault = none ∧ ¬ b.Ready ∧ guarded rule b = (b.raiseFault .illegalState, none)) ∨
      (∃ m, b.ReadyIn m ∧ guarded rule b = rule m b) := by
  cases hf : b.fault with
  | some r => exact .inl ⟨by simp, guarded_of_fault hf⟩
  | none =>
    by_cases hr : b.Ready
    · obtain ⟨m, hm⟩ := hr.readyIn
      exact .inr (.inr ⟨m, hm, guarded_of_readyIn hm⟩)
    · refine .inr (.inl ⟨rfl, hr, guarded_of_illegal hf ?_⟩)
      unfold Block.Ready at hr
      by_cases hs : b.state.toNat ≤ 4
      · right
        by_contra hd
        exact hr ⟨hf, hs, by omega⟩
      · left
        omega

/-! Events. -/

@[simp] theorem applyEvent_label (e : Event) (m : MotorState) (b : Block) :
    (applyEvent e m b).2 = (fsm m b.idx e).out := rfl

@[simp] theorem applyEvent_state (e : Event) (m : MotorState) (b : Block) :
    (applyEvent e m b).1.state = codeOf (fsm m b.idx e).state := by
  simp [applyEvent]

@[simp] theorem applyEvent_idx (e : Event) (m : MotorState) (b : Block) :
    (applyEvent e m b).1.idx = (fsm m b.idx e).idx := by
  simp [applyEvent]

@[simp] theorem applyEvent_div (e : Event) (m : MotorState) (b : Block) :
    (applyEvent e m b).1.div = b.div := by
  simp [applyEvent]

@[simp] theorem applyEvent_fault (e : Event) (m : MotorState) (b : Block) :
    (applyEvent e m b).1.fault = b.fault := by
  simp [applyEvent]

/-- A command's event never emits and never moves the index: it can only set the motion state. -/
theorem applyEvent_command {e : Event} (he : e ≠ .tick) (m : MotorState) (b : Block) :
    applyEvent e m b = ({ b with state := codeOf (fsm m b.idx e).state }, none) := by
  cases e
  case tick => exact absurd rfl he
  all_goals cases m <;> rfl

/-- The TICK event in each motion state (R74, R78, R82, R83, R87, R91, R92). -/
theorem applyEvent_tick (m : MotorState) (b : Block) :
    applyEvent .tick m b =
      match m with
      | .stopped => ({ b with state := codeOf .stopped }, none)
      | .forward =>
        (({ b with state := codeOf .forward, idx := idxForward b.idx } : Block).emit (movingWaveform b.idx),
          some (movingWaveform b.idx))
      | .reverse =>
        (({ b with state := codeOf .reverse, idx := idxBackward b.idx } : Block).emit (movingWaveform b.idx),
          some (movingWaveform b.idx))
      | .brakingForward =>
        if b.idx.toNat % 8 = 0 then
          (({ b with state := codeOf .stopped } : Block).emit (parkingWaveform b.idx), some (parkingWaveform b.idx))
        else
          (({ b with state := codeOf .brakingForward, idx := idxForward b.idx } : Block).emit (movingWaveform b.idx),
            some (movingWaveform b.idx))
      | .brakingReverse =>
        if b.idx.toNat % 8 = 0 then
          (({ b with state := codeOf .stopped } : Block).emit (parkingWaveform b.idx), some (parkingWaveform b.idx))
        else
          (({ b with state := codeOf .brakingReverse, idx := idxBackward b.idx } : Block).emit (movingWaveform b.idx),
            some (movingWaveform b.idx)) := by
  cases m <;> simp only [applyEvent, fsm, boundary_iff] <;> try rfl
  all_goals split <;> rfl

/-! Reset. -/

/-- Reset gives the same block from every block, and emits `(16, 1)` (R123, R124). -/
@[simp] theorem resetBlock_eq (b : Block) : resetBlock b = (Block.reset, some { amp := 16#6, pol := 1#4 }) := rfl

/-! The step. -/

/-- Every instruction answers a next state: its step on the block, committed. -/
theorem exec_eq (i : Instr) (s : State) : exec i s = .next (s.commit (blockStep i s.block)) := by
  cases i <;> rfl

/-- The rule of an instruction: what it does to a ready block in a given motion state. -/
def ruleOf : Instr → MotorState → Block → Block × Option Output
  | .nop => fun _ b => (b, none)
  | .hwtick => hwtickRule
  | .cmdAdvance => applyEvent .advance
  | .cmdRetreat => applyEvent .retreat
  | .cmdStop => applyEvent .stop
  | .evAdvance => applyEvent .advance
  | .evRetreat => applyEvent .retreat
  | .evStop => applyEvent .stop
  | .evTick => applyEvent .tick

/-- Every instruction's step on the block is its rule, guarded. -/
theorem blockStep_eq_guarded (i : Instr) (b : Block) : blockStep i b = guarded (ruleOf i) b := by
  cases i <;> rfl

/-- With `FAULT` set, every instruction keeps the block and emits nothing (R18). -/
theorem blockStep_of_fault {i : Instr} {b : Block} {r : Fault} (h : b.fault = some r) : blockStep i b = (b, none) := by
  rw [blockStep_eq_guarded, guarded_of_fault h]

/-- From an illegal state, every instruction raises the fault (R107). -/
theorem blockStep_of_illegal {i : Instr} {b : Block} (h : b.fault = none)
    (hl : 5 ≤ b.state.toNat ∨ 26 ≤ b.div.toNat) : blockStep i b = (b.raiseFault .illegalState, none) := by
  rw [blockStep_eq_guarded, guarded_of_illegal h hl]

/-- From a ready block, every instruction's own rule acts. -/
theorem blockStep_of_readyIn {i : Instr} {b : Block} {m : MotorState} (h : b.ReadyIn m) :
    blockStep i b = ruleOf i m b := by
  rw [blockStep_eq_guarded, guarded_of_readyIn h]

/-- Everything an instruction's step on the block can do. -/
theorem blockStep_cases (i : Instr) (b : Block) :
    (b.fault ≠ none ∧ blockStep i b = (b, none)) ∨
      (b.fault = none ∧ (5 ≤ b.state.toNat ∨ 26 ≤ b.div.toNat) ∧
        blockStep i b = (b.raiseFault .illegalState, none)) ∨
      (∃ m, b.ReadyIn m ∧ blockStep i b = ruleOf i m b) := by
  rw [blockStep_eq_guarded]
  rcases guarded_cases (ruleOf i) b with h | ⟨hf, hr, hg⟩ | h
  · exact .inl h
  · refine .inr (.inl ⟨hf, ?_, hg⟩)
    unfold Block.Ready at hr
    by_contra hc
    exact hr ⟨hf, by omega, by omega⟩
  · exact .inr (.inr h)

/-- A step is one of three things: an instruction run on the state without the item it serves, a reset of that state, or a
refusal. On the `STIM` port the instruction is a stimulus; only where `Fsm` is driven can it be an event (R7, D24). -/
theorem step_eq_cases (s : State) :
    (∃ i, (i.format = s.drive ∨ i = .nop) ∧ step s = exec i s.takeItem) ∨ step s = .next s.takeItem.applyReset ∨
      ∃ r, step s = .refused r := by
  unfold step fetch
  cases hd : s.drive with
  | stim3 =>
    cases hin : s.input with
    | nil => exact .inl ⟨.nop, .inr rfl, rfl⟩
    | cons x rest =>
      cases x with
      | reset => exact .inr (.inl rfl)
      | word w =>
        rcases decodeStim_cases w with ⟨i, h, he, -⟩ | ⟨h, -⟩
        · have hf := congrArg PortWord.format he
          rw [encode_format] at hf
          exact .inl ⟨i, .inl hf, by simp [fetchItem, h]⟩
        · exact .inr (.inr ⟨_, by simp [fetchItem, h]; rfl⟩)
  | evt2 =>
    cases hin : s.events with
    | nil => exact .inl ⟨.nop, .inr rfl, rfl⟩
    | cons x rest =>
      cases x with
      | reset => exact .inr (.inl rfl)
      | word e =>
        have hf := congrArg PortWord.format (encode_decodeEvt e)
        rw [encode_format] at hf
        exact .inl ⟨decodeEvt e, .inl hf, rfl⟩

/-- What a step that answers a next state has done: run one instruction, or reset. -/
theorem step_cases {s t : State} (h : step s = .next t) :
    (∃ i, (i.format = s.drive ∨ i = .nop) ∧ t = s.takeItem.commit (blockStep i s.block)) ∨ t = s.takeItem.applyReset := by
  rcases step_eq_cases s with ⟨i, hi, hs⟩ | hs | ⟨r, hs⟩
  · rw [hs, exec_eq] at h
    cases h
    exact .inl ⟨i, hi, by simp⟩
  · rw [hs] at h
    cases h
    exact .inr rfl
  · rw [hs] at h
    cases h

/-! One lemma for each item a step can serve, on each port. -/

theorem step_stim_idle {s : State} (hd : s.drive = .stim3) (h : s.input = []) : step s = exec .nop s := by
  have ht : s.takeItem = s := by
    rw [State.takeItem_of_stim hd, h]
    cases s
    simp_all
  simp [step, fetch, fetchItem, hd, h, ht]

theorem step_stim_reset {s : State} {rest : List Input} (hd : s.drive = .stim3) (h : s.input = .reset :: rest) :
    step s = .next ({ s with input := rest } : State).applyReset := by
  simp [step, fetch, fetchItem, hd, h, State.takeItem_of_stim hd]

theorem step_stim_word {s : State} {w : StimWord} {rest : List Input} {i : Instr} (hd : s.drive = .stim3)
    (h : s.input = .word w :: rest) (hw : decodeStim w = .ok i) : step s = exec i { s with input := rest } := by
  simp [step, fetch, fetchItem, hd, h, hw, State.takeItem_of_stim hd]

theorem step_stim_refused {s : State} {w : StimWord} {rest : List Input} (hd : s.drive = .stim3)
    (h : s.input = .word w :: rest) (hw : 5 ≤ w.toNat) : step s = .refused (.reservedStimulus w) := by
  rcases decodeStim_cases w with ⟨i, -, -, hle⟩ | ⟨he, -⟩
  · omega
  · simp [step, fetch, fetchItem, hd, h, he, refusalOf]

theorem step_evt_idle {s : State} (hd : s.drive = .evt2) (h : s.events = []) : step s = exec .nop s := by
  have ht : s.takeItem = s := by
    rw [State.takeItem_of_evt hd, h]
    cases s
    simp_all
  simp [step, fetch, fetchItem, hd, h, ht]

theorem step_evt_reset {s : State} {rest : List FsmInput} (hd : s.drive = .evt2) (h : s.events = .reset :: rest) :
    step s = .next ({ s with events := rest } : State).applyReset := by
  simp [step, fetch, fetchItem, hd, h, State.takeItem_of_evt hd]

theorem step_evt_word {s : State} {e : EvtWord} {rest : List FsmInput} (hd : s.drive = .evt2)
    (h : s.events = .word e :: rest) : step s = exec (decodeEvt e) { s with events := rest } := by
  simp [step, fetch, fetchItem, decodeEvent, hd, h, State.takeItem_of_evt hd]

end Sys2Proof.Machine
end

