-- ==== Sys2Proof/Laws/PerInstr.lean ====
section
/-! SUPPORT. Statements made for every instruction, one lemma per constructor. -/

/-- The instruction's word stands on its format's port, fits that port, matches its row of the opcode table, and decodes
to the instruction (30_encoding.md R49, R51, R53). -/
def Sys2Proof.Laws.EncodesToItsRow.Statement (i : Sys2Proof.Instr) : Prop :=
  (Sys2Proof.encode i).format = i.format ∧
  (Sys2Proof.encode i).value < 2 ^ i.format.bits ∧
  (∃ r ∈ Sys2Proof.opcodeTable, r.instr = i ∧ r.covers (Sys2Proof.encode i) = true) ∧
  Sys2Proof.decode (Sys2Proof.encode i) = .ok i

theorem Sys2Proof.Laws.EncodesToItsRow.nop : Sys2Proof.Laws.EncodesToItsRow.Statement .nop :=
  ⟨rfl, by decide, by decide, rfl⟩

theorem Sys2Proof.Laws.EncodesToItsRow.hwtick : Sys2Proof.Laws.EncodesToItsRow.Statement .hwtick :=
  ⟨rfl, by decide, by decide, rfl⟩

theorem Sys2Proof.Laws.EncodesToItsRow.cmdAdvance : Sys2Proof.Laws.EncodesToItsRow.Statement .cmdAdvance :=
  ⟨rfl, by decide, by decide, rfl⟩

theorem Sys2Proof.Laws.EncodesToItsRow.cmdRetreat : Sys2Proof.Laws.EncodesToItsRow.Statement .cmdRetreat :=
  ⟨rfl, by decide, by decide, rfl⟩

theorem Sys2Proof.Laws.EncodesToItsRow.cmdStop : Sys2Proof.Laws.EncodesToItsRow.Statement .cmdStop :=
  ⟨rfl, by decide, by decide, rfl⟩

theorem Sys2Proof.Laws.EncodesToItsRow.evAdvance : Sys2Proof.Laws.EncodesToItsRow.Statement .evAdvance :=
  ⟨rfl, by decide, by decide, rfl⟩

theorem Sys2Proof.Laws.EncodesToItsRow.evRetreat : Sys2Proof.Laws.EncodesToItsRow.Statement .evRetreat :=
  ⟨rfl, by decide, by decide, rfl⟩

theorem Sys2Proof.Laws.EncodesToItsRow.evStop : Sys2Proof.Laws.EncodesToItsRow.Statement .evStop :=
  ⟨rfl, by decide, by decide, rfl⟩

theorem Sys2Proof.Laws.EncodesToItsRow.evTick : Sys2Proof.Laws.EncodesToItsRow.Statement .evTick :=
  ⟨rfl, by decide, by decide, rfl⟩
end

