-- ==== Sys2Proof/Laws/Runs.lean ====
section
/-! SUPPORT. The unrolling of the ways to iterate a step: the host's `Host.Core.run` over the machine, and `runFrom` and
`runEvents` over the block. -/

namespace Sys2Proof.Machine

/-- One step of a run of any machine, where it answers a next state. -/
theorem host_run_of_next (M : Host.Core) (n : Nat) (s t : M.State) (h : M.step s = .next t) :
    M.run (n + 1) s = M.run n t := by
  rw [Host.Core.run.eq_def]
  simp only [h]

/-- A run of any machine that ends in a next state begins with a step that does. -/
theorem host_run_succ (M : Host.Core) (n : Nat) (s t : M.State) (h : M.run (n + 1) s = .next t) :
    ∃ u, M.step s = .next u ∧ M.run n u = .next t := by
  rw [Host.Core.run.eq_def] at h
  cases hs : M.step s <;> simp [hs] at h
  exact ⟨_, rfl, h⟩

theorem core_run_zero (s : State) : Sys2Proof.core.run 0 s = .next s := rfl

theorem core_run_of_next {n : Nat} {s t : State} (h : step s = .next t) :
    Sys2Proof.core.run (n + 1) s = Sys2Proof.core.run n t :=
  host_run_of_next Sys2Proof.core n s t h

theorem core_run_succ {n : Nat} {s t : State} (h : Sys2Proof.core.run (n + 1) s = .next t) :
    ∃ u, step s = .next u ∧ Sys2Proof.core.run n u = .next t :=
  host_run_succ Sys2Proof.core n s t h

/-! Runs on any port: `dec` is its decoder. -/

section
variable {α : Type} {dec : α → Except DecodeRefusal Instr}

@[simp] theorem runWith_nil (b : Block) : runWith dec b [] = { block := b, labels := [], refused := false } := rfl

/-- What a run carries besides its block only grows: the run of `xs` from any run `r` is that from a fresh run, with `r`'s
labels before and `r`'s mark kept. -/
theorem foldl_next (r : Run) (xs : List (Item α)) :
    xs.foldl (Run.next dec) r =
      { block := (runWith dec r.block xs).block,
        labels := r.labels ++ (runWith dec r.block xs).labels,
        refused := r.refused || (runWith dec r.block xs).refused } := by
  induction xs generalizing r with
  | nil => simp
  | cons x xs ih =>
    have hx : runWith dec r.block (x :: xs) =
        xs.foldl (Run.next dec) (Run.next dec { block := r.block, labels := [], refused := false } x) := rfl
    rw [List.foldl_cons, ih, hx, ih]
    cases x with
    | reset => simp [Run.next]
    | word w => cases hd : dec w <;> simp [Run.next, hd]

/-- A run of an accepted word and then `xs`. -/
theorem runWith_word {b : Block} {w : α} {i : Instr} (hd : dec w = .ok i) (xs : List (Item α)) :
    runWith dec b (.word w :: xs) =
      { block := (runWith dec (blockStep i b).1 xs).block,
        labels := (blockStep i b).2 :: (runWith dec (blockStep i b).1 xs).labels,
        refused := (runWith dec (blockStep i b).1 xs).refused } := by
  have h : runWith dec b (.word w :: xs) =
      xs.foldl (Run.next dec) (Run.next dec { block := b, labels := [], refused := false } (.word w)) := rfl
  rw [h, foldl_next]
  simp [Run.next, hd]

/-- A run of a refused word and then `xs`: the word has no step, and the mark is set (R105). -/
theorem runWith_refused {b : Block} {w : α} {r : DecodeRefusal} (hd : dec w = .error r) (xs : List (Item α)) :
    runWith dec b (.word w :: xs) = { runWith dec b xs with refused := true } := by
  have h : runWith dec b (.word w :: xs) =
      xs.foldl (Run.next dec) (Run.next dec { block := b, labels := [], refused := false } (.word w)) := rfl
  rw [h, foldl_next]
  simp [Run.next, hd]

/-- A run of a reset and then `xs`. -/
theorem runWith_reset {b : Block} (xs : List (Item α)) :
    runWith dec b (.reset :: xs) =
      { block := (runWith dec Block.reset xs).block,
        labels := some { amp := 16#6, pol := 1#4 } :: (runWith dec Block.reset xs).labels,
        refused := (runWith dec Block.reset xs).refused } := by
  have h : runWith dec b (.reset :: xs) =
      xs.foldl (Run.next dec) (Run.next dec { block := b, labels := [], refused := false } .reset) := rfl
  rw [h, foldl_next]
  simp [Run.next]

/-- A run in two parts. -/
theorem runWith_append (b : Block) (xs ys : List (Item α)) :
    runWith dec b (xs ++ ys) =
      { block := (runWith dec (runWith dec b xs).block ys).block,
        labels := (runWith dec b xs).labels ++ (runWith dec (runWith dec b xs).block ys).labels,
        refused := (runWith dec b xs).refused || (runWith dec (runWith dec b xs).block ys).refused } := by
  have h : runWith dec b (xs ++ ys) = ys.foldl (Run.next dec) (runWith dec b xs) := by simp [runWith]
  rw [h, foldl_next]

end

/-! The same on the `STIM` port. -/

@[simp] theorem runFrom_nil (b : Block) : runFrom b [] = { block := b, labels := [], refused := false } := rfl

theorem runFrom_word {b : Block} {w : StimWord} {i : Instr} (hd : decodeStim w = .ok i) (xs : List Input) :
    runFrom b (.word w :: xs) =
      { block := (runFrom (blockStep i b).1 xs).block,
        labels := (blockStep i b).2 :: (runFrom (blockStep i b).1 xs).labels,
        refused := (runFrom (blockStep i b).1 xs).refused } :=
  runWith_word hd xs

theorem runFrom_refused {b : Block} {w : StimWord} (h : 5 ≤ w.toNat) (xs : List Input) :
    runFrom b (.word w :: xs) = { runFrom b xs with refused := true } := by
  rcases decodeStim_cases w with ⟨i, -, -, hle⟩ | ⟨hd, -⟩
  · omega
  · exact runWith_refused hd xs

theorem runFrom_reset {b : Block} (xs : List Input) :
    runFrom b (.reset :: xs) =
      { block := (runFrom Block.reset xs).block,
        labels := some { amp := 16#6, pol := 1#4 } :: (runFrom Block.reset xs).labels,
        refused := (runFrom Block.reset xs).refused } :=
  runWith_reset xs

theorem runFrom_append (b : Block) (xs ys : List Input) :
    runFrom b (xs ++ ys) =
      { block := (runFrom (runFrom b xs).block ys).block,
        labels := (runFrom b xs).labels ++ (runFrom (runFrom b xs).block ys).labels,
        refused := (runFrom b xs).refused || (runFrom (runFrom b xs).block ys).refused } :=
  runWith_append b xs ys

/-! The same where events drive `Fsm`: no code is refused. -/

@[simp] theorem runEvents_nil (b : Block) : runEvents b [] = { block := b, labels := [], refused := false } := rfl

theorem runEvents_word {b : Block} (e : EvtWord) (es : List FsmInput) :
    runEvents b (.word e :: es) =
      { block := (runEvents (blockStep (decodeEvt e) b).1 es).block,
        labels := (blockStep (decodeEvt e) b).2 :: (runEvents (blockStep (decodeEvt e) b).1 es).labels,
        refused := (runEvents (blockStep (decodeEvt e) b).1 es).refused } :=
  runWith_word (dec := decodeEvent) rfl es

theorem runEvents_reset {b : Block} (es : List FsmInput) :
    runEvents b (.reset :: es) =
      { block := (runEvents Block.reset es).block,
        labels := some { amp := 16#6, pol := 1#4 } :: (runEvents Block.reset es).labels,
        refused := (runEvents Block.reset es).refused } :=
  runWith_reset es

theorem runEvents_append (b : Block) (xs ys : List FsmInput) :
    runEvents b (xs ++ ys) =
      { block := (runEvents (runEvents b xs).block ys).block,
        labels := (runEvents b xs).labels ++ (runEvents (runEvents b xs).block ys).labels,
        refused := (runEvents b xs).refused || (runEvents (runEvents b xs).block ys).refused } :=
  runWith_append b xs ys

end Sys2Proof.Machine
end

