-- ==== Sys2Proof/Machine/Ports.lean ====
section
/-! DEFINITION. The block's output ports (10_state.md R27, 30_encoding.md R56), and what stands behind them outside the
block: the duty an amplitude stands for (41_waveform.md R67) and the Output Driver's open parameters
(93_implementation_defined.md I4 to I6). The last are observations; no step reads them. -/

namespace Sys2Proof.Machine

/-- `EMIT`: raised in a step that calls `setOutput` (R27). -/
def State.emitPort (s : State) : Bool := s.label.isSome

/-- `AMP` (R27). -/
def State.ampPort (s : State) : Amplitude := s.block.outAmp

/-- `POL` (R27). -/
def State.polPort (s : State) : Polarity := s.block.outPol

/-- The duty an amplitude stands for, as a fraction of the PWM period: `a/32` (R67). -/
def duty (a : Amplitude) : Rat := (a.toNat : Rat) / 32

/-- The PWM compare value the Output Driver makes of `AMP`: an open parameter (I6). -/
def State.pwmCompare (s : State) : Nat := Config.pwmMap s.ampPort

/-- The setting of the bridge that `POL` asks of the Output Driver: an open parameter (I5). -/
def State.bridgeSetting (s : State) : Nat := Config.polBitMap s.polPort

/-- The output between power-up and the startup hook: any value (I4). No state of a run shows it, because reset is
indivisible (70_reset_and_hazards.md R124). -/
def powerUpOutput : Output := { amp := Config.powerUpAmp, pol := Config.powerUpPol }

end Sys2Proof.Machine
end

