-- ==== Sys2Proof/Tests/Slice0.lean ====
section
/-! SUPPORT. The model's own tests. Expected values are those of 95_test_vectors.md (named in each comment) or are read off
the numbered rules by hand. The last part shows, for each obligation with hypotheses, a state and operands that meet them. -/

namespace Sys2Proof.Tests
open Sys2Proof.Machine

/-- A block without a fault. -/
def blk (c : StateCode) (i : StepIndex) (d : DivCount) (a : Amplitude) (p : Polarity) : Block :=
  { state := c, idx := i, div := d, outAmp := a, outPol := p, fault := none }

/-- A machine driven on the `STIM` port, with a block, some inputs and no label. -/
def mach (b : Block) (xs : List Input) : State :=
  { block := b, drive := .stim3, input := xs, events := [], label := none }

/-- A machine whose `Fsm` is driven with events, with a block and no label. -/
def fsmMach (b : Block) (es : List FsmInput) : State :=
  { block := b, drive := .evt2, input := [], events := es, label := none }

/-- Moving forward at index 8, on a boundary, with `DIV = 0`. -/
def forward8 : Block := blk 0b001#3 8#5 0#5 16#6 4#4

/-- The block and the label an instruction leaves. -/
def after (i : Instr) (b : Block) : Option (Block × Option Output) :=
  match exec i (mach b []) with
  | .next t => some (t.block, t.label)
  | .fault _ => none
  | .refused _ => none

/-- The state a step answers. -/
def nextOf (s : State) : Option State :=
  match step s with
  | .next t => some t
  | .fault _ => none
  | .refused _ => none

/-- The reason a step is refused. -/
def refusalIn (s : State) : Option Refusal :=
  match step s with
  | .next _ => none
  | .fault _ => none
  | .refused r => some r

/-! ## Decoding: words written out from the tables of 30_encoding.md (V-DEC) -/

theorem test_decode_nop : decode (.stim 0b000#3) = .ok .nop := by rfl
theorem test_decode_hwtick : decode (.stim 0b001#3) = .ok .hwtick := by rfl
theorem test_decode_cmdAdvance : decode (.stim 0b010#3) = .ok .cmdAdvance := by rfl
theorem test_decode_cmdRetreat : decode (.stim 0b011#3) = .ok .cmdRetreat := by rfl
theorem test_decode_cmdStop : decode (.stim 0b100#3) = .ok .cmdStop := by rfl
theorem test_decode_reserved : decode (.stim 0b101#3) = .error (.reservedStimulus 0b101#3) := by rfl
theorem test_decode_evAdvance : decode (.evt 0b00#2) = .ok .evAdvance := by rfl
theorem test_decode_evRetreat : decode (.evt 0b01#2) = .ok .evRetreat := by rfl
theorem test_decode_evStop : decode (.evt 0b10#2) = .ok .evStop := by rfl
theorem test_decode_evTick : decode (.evt 0b11#2) = .ok .evTick := by rfl

/-- A number wider than the port is refused by name. -/
theorem test_decode_outsidePort : decodeNumber .stim3 8 = .error (.outsidePort .stim3 8) := by rfl

/-- The host's table words (log entry 3): a whole byte is a `STIM` word, two bits are an event. -/
theorem test_tableWord_hwtick : decodeTableWord 8 1 = some .hwtick := by decide
theorem test_tableWord_evTick : decodeTableWord 2 3 = some .evTick := by decide
theorem test_tableWord_reserved : decodeTableWord 8 6 = none := by decide

/-- The first step after reset runs the presented word. -/
theorem test_fetchWord_cmdAdvance :
    (nextOf (State.reset.withFetchWord 8 0b010)).map State.block = some (blk 0b001#3 0#5 0#5 16#6 1#4) := by decide
/-- The same on the event port: EV_RETREAT at rest. -/
theorem test_fetchWord_evRetreat :
    (nextOf (State.reset.withFetchWord 2 0b01)).map State.block = some (blk 0b011#3 0#5 0#5 16#6 1#4) := by decide

/-! ## Well-formedness: each check refuses an ill-formed term -/

theorem test_wellFormed_refuses_zero_copies : Line.wellFormed (.instr .hwtick 0) = false := by decide
theorem test_wellFormed_refuses_step_zero : Line.wellFormed (.step 0) = false := by decide
theorem test_wellFormed_refuses_other_port : programWellFormed .stim3 [.instr .nop 1, .instr .evTick 1] = false := by
  decide
theorem test_wellFormed_refuses_step_on_events : programWellFormed .evt2 [.step 1] = false := by decide
theorem test_wellFormed_accepts : programWellFormed .stim3 [.instr .cmdAdvance 1, .reset, .step 2] = true := by decide

/-! ## The waveforms (W2, W3, W4; V-WAVE) -/

theorem test_movingWaveform_0 : movingWaveform 0#5 = { amp := 32#6, pol := 5#4 } := by decide
theorem test_movingWaveform_9 : movingWaveform 9#5 = { amp := 1#6, pol := 6#4 } := by decide
theorem test_movingWaveform_31 : movingWaveform 31#5 = { amp := 31#6, pol := 9#4 } := by decide
theorem test_parkingWaveform_16 : parkingWaveform 16#5 = { amp := 16#6, pol := 2#4 } := by decide
/-- R37: the table is symmetric about entry 8, and no entry is above full scale. -/
theorem test_ampLut_symmetric :
    (∀ i : BitVec 4, i ≠ 0#4 → readAmpLut i = readAmpLut (0#4 - i)) ∧ ∀ i, (readAmpLut i).toNat ≤ ampMax := by decide
/-- R67: the parking amplitude is a duty of one half. -/
theorem test_duty_parking : duty parkAmp = 1 / 2 := by norm_num [duty, parkAmp]

/-! ## One step of each instruction -/

/-- V-DIV: `(F, 9, 7)`, NOP. -/
theorem test_nop : after .nop (blk 0b001#3 9#5 7#5 0#6 6#4) = some (blk 0b001#3 9#5 7#5 0#6 6#4, none) := by decide
/-- V-OUT: `(F, 8, 0, (16, 4))`, HWTICK. -/
theorem test_hwtick_tick :
    after .hwtick (blk 0b001#3 8#5 0#5 16#6 4#4) = some (blk 0b001#3 9#5 1#5 0#6 6#4, some { amp := 0#6, pol := 6#4 }) := by
  decide
/-- V-DIV: `(F, 5, 25)`, HWTICK: no TICK, and `DIV` wraps to 0. -/
theorem test_hwtick_wrap : after .hwtick (blk 0b001#3 5#5 25#5 16#6 1#4) = some (blk 0b001#3 5#5 0#5 16#6 1#4, none) := by
  decide
/-- V-OUT: `(S, 8, 3, (16, 4))`, CMD_ADVANCE. -/
theorem test_cmdAdvance : after .cmdAdvance (blk 0b000#3 8#5 3#5 16#6 4#4) = some (blk 0b001#3 8#5 3#5 16#6 4#4, none) := by
  decide
/-- R84: (R, 20) on ADVANCE brakes. -/
theorem test_cmdAdvance_brakes :
    after .cmdAdvance (blk 0b011#3 20#5 3#5 22#6 10#4) = some (blk 0b100#3 20#5 3#5 22#6 10#4, none) := by decide
/-- R98: after reset, CMD_RETREAT. -/
theorem test_cmdRetreat : after .cmdRetreat Block.reset = some (blk 0b011#3 0#5 0#5 16#6 1#4, none) := by decide
/-- R76: (F, 13) on RETREAT brakes. -/
theorem test_cmdRetreat_brakes :
    after .cmdRetreat (blk 0b001#3 13#5 9#5 16#6 6#4) = some (blk 0b010#3 13#5 9#5 16#6 6#4, none) := by decide
/-- R99: `(F, IDX 12, DIV 4)`, CMD_STOP. -/
theorem test_cmdStop : after .cmdStop (blk 0b001#3 12#5 4#5 10#6 6#4) = some (blk 0b010#3 12#5 4#5 10#6 6#4, none) := by
  decide
/-- V-FAULT: `IDX 3, DIV 30, STATE F`, CMD_STOP. -/
theorem test_cmdStop_fault :
    after .cmdStop (blk 0b001#3 3#5 30#5 16#6 1#4) =
      some ({ blk 0b001#3 3#5 30#5 16#6 1#4 with fault := some .illegalState }, none) := by decide
/-- R93: `(STOPPED, IDX 8)`, EV_ADVANCE. -/
theorem test_evAdvance : after .evAdvance (blk 0b000#3 8#5 2#5 16#6 4#4) = some (blk 0b001#3 8#5 2#5 16#6 4#4, none) := by
  decide
/-- R94: `(FORWARD, IDX 3)`, EV_RETREAT. -/
theorem test_evRetreat : after .evRetreat (blk 0b001#3 3#5 2#5 27#6 5#4) = some (blk 0b010#3 3#5 2#5 27#6 5#4, none) := by
  decide
/-- R95: `(REVERSE, IDX 30)`, EV_STOP. -/
theorem test_evStop : after .evStop (blk 0b011#3 30#5 2#5 31#6 9#4) = some (blk 0b100#3 30#5 2#5 31#6 9#4, none) := by
  decide
/-- V-FSM, R87 wrap: (R, 0) on TICK. -/
theorem test_evTick_reverse_wrap :
    after .evTick (blk 0b011#3 0#5 7#5 16#6 1#4) = some (blk 0b011#3 31#5 7#5 32#6 5#4, some { amp := 32#6, pol := 5#4 }) := by
  decide
/-- R96: (BF, 7) on TICK still emits the moving waveform of 7, and lands on the boundary without parking. -/
theorem test_evTick_before_boundary :
    after .evTick (blk 0b010#3 7#5 7#5 5#6 5#4) = some (blk 0b010#3 8#5 7#5 1#6 5#4, some { amp := 1#6, pol := 5#4 }) := by
  decide

/-! ## The machine's step: faults, refusals, reset (V-FAULT, V-RESET) -/

/-- STATE code 101, HWTICK: the fault is stored and the outputs stay. -/
theorem test_step_illegal_state :
    (nextOf (mach (blk 0b101#3 0#5 4#5 16#6 1#4) [.word 0b001#3])).map State.block =
      some { blk 0b101#3 0#5 4#5 16#6 1#4 with fault := some .illegalState } := by decide
/-- FAULT set, (F, 3, 0): HWTICK changes nothing. -/
theorem test_step_fault_is_sticky :
    nextOf (mach { blk 0b001#3 3#5 0#5 27#6 5#4 with fault := some .illegalState } [.word 0b001#3]) =
      some (mach { blk 0b001#3 3#5 0#5 27#6 5#4 with fault := some .illegalState } []) := by decide
/-- The word 110 is refused. -/
theorem test_step_reserved :
    refusalIn (mach (blk 0b000#3 0#5 5#5 16#6 1#4) [.word 0b110#3]) = some (.reservedStimulus 0b110#3) := by decide
/-- P5: RESET during motion. -/
theorem test_step_reset :
    nextOf (mach (blk 0b001#3 2#5 14#5 31#6 5#4) [.reset]) = some State.reset := by decide
/-- The reset of a faulted block. -/
theorem test_step_reset_of_fault :
    nextOf (mach { blk 0b111#3 9#5 31#5 63#6 15#4 with fault := some .illegalState } [.reset]) = some State.reset := by decide
/-- D24: an event code that waits on the event port is not served while the block's port is driven. -/
theorem test_step_serves_no_event :
    nextOf { mach forward8 [.word 0b000#3] with events := [.word 0b11#2] } =
      some { mach forward8 [] with events := [.word 0b11#2] } := by decide
/-- The reset state's block is what the reset operation makes. -/
theorem test_reset_is_resetBlock : resetBlock Block.reset = (State.reset.block, State.reset.label) := by decide

/-! ## The assembler (R57, R58) -/

theorem test_parse :
    parseProgram ['H', 'W', 'T', 'I', 'C', 'K', '*', '1', '2', ' ', ';', 'x', '\n', '\n', 'R', 'E', 'S', 'E', 'T', '\n',
      'S', 'T', 'E', 'P', '\n', 'E', 'V', '_', 'S', 'T', 'O', 'P'] =
      some [.instr .hwtick 12, .reset, .step 1, .instr .evStop 1] := by decide
theorem test_parse_refuses_unknown : parseProgram ['H', 'A', 'L', 'T'] = none := by decide
theorem test_parse_refuses_zero : parseProgram ['N', 'O', 'P', '*', '0'] = none := by decide
/-- R58: `f = 1` when `d = 0`, and `f = 27 - d` otherwise. -/
theorem test_stepLength : stepLength 0 1 = 1 ∧ stepLength 25 1 = 2 ∧ stepLength 1 1 = 26 ∧ stepLength 1 7 = 182 := by decide
theorem test_assemble :
    assemble 0 [.instr .cmdStop 2, .reset] = [.word (.stim 0b100#3), .word (.stim 0b100#3), .reset] := by decide
/-- A program is presented on the port of its format. -/
theorem test_load :
    State.reset.load .stim3 [.instr .cmdStop 1, .reset] = { State.reset with input := [.word 0b100#3, .reset] } ∧
      State.reset.load .evt2 [.reset, .instr .evTick 1] =
        { State.reset with drive := .evt2, events := [.reset, .word 0b11#2] } := by decide

/-! ## The environment (R111, I1) -/

theorem test_environment_without_stop : admits {} [.word 0b100#3] = false := by decide
theorem test_environment_with_stop : admits { stopWired := true } [.word 0b100#3, .reset] = true := by decide

/-! ## Witnesses: a state and operands that meet the hypotheses of an obligation -/

/-- At rest on boundary 8, with the output parked there. -/
def resting : Block := blk 0b000#3 8#5 0#5 16#6 4#4
/-- Moving forward at index 31, the last before the wrap, with `DIV` at its highest. -/
def forward31 : Block := blk 0b001#3 31#5 25#5 27#6 9#4
/-- Moving in reverse at index 0, the last before the wrap. -/
def reverse0 : Block := blk 0b011#3 0#5 0#5 31#6 5#4
/-- Braking forward off a boundary. -/
def brakingF7 : Block := blk 0b010#3 7#5 1#5 5#6 5#4
/-- Braking in reverse on a boundary. -/
def brakingR24 : Block := blk 0b100#3 24#5 25#5 1#6 9#4
/-- A faulted block in a legal state. -/
def faulted : Block := { resting with fault := some .illegalState }

theorem resting_readyIn : resting.ReadyIn .stopped := ⟨rfl, rfl, by decide⟩
theorem forward31_readyIn : forward31.ReadyIn .forward := ⟨rfl, rfl, by decide⟩
theorem reverse0_readyIn : reverse0.ReadyIn .reverse := ⟨rfl, rfl, by decide⟩
theorem brakingF7_readyIn : brakingF7.ReadyIn .brakingForward := ⟨rfl, rfl, by decide⟩
theorem brakingR24_readyIn : brakingR24.ReadyIn .brakingReverse := ⟨rfl, rfl, by decide⟩
theorem resting_sound : resting.Sound := by
  refine ⟨⟨rfl, by decide, by decide⟩, ⟨by decide, by decide, by decide, by decide⟩, fun _ => by decide,
    fun _ => ⟨by decide, by decide⟩, fun h => ?_, fun h => ?_⟩
  · rcases h with h | h <;> exact absurd h (by decide)
  · rcases h with h | h <;> exact absurd h (by decide)

theorem witness_ResetFromAnyState :
    (mach faulted [.reset, .word 0b001#3]).drive = .stim3 ∧
      (mach faulted [.reset, .word 0b001#3]).input = .reset :: [.word 0b001#3] ∧
      (fsmMach faulted [.reset]).drive = .evt2 ∧ (fsmMach faulted [.reset]).events = .reset :: [] := by
  decide
theorem witness_StepRunsDecodedInstruction :
    ((mach forward31 [.word 0b100#3]).drive = .stim3 ∧ (mach forward31 [.word 0b100#3]).input = .word 0b100#3 :: [] ∧
      decode (.stim 0b100#3) = .ok .cmdStop) ∧
    ((mach forward31 []).drive = .stim3 ∧ (mach forward31 []).input = []) ∧
    ((fsmMach forward31 [.word 0b11#2]).drive = .evt2 ∧ (fsmMach forward31 [.word 0b11#2]).events = .word 0b11#2 :: [] ∧
      decode (.evt 0b11#2) = .ok .evTick) ∧
    ((fsmMach forward31 []).drive = .evt2 ∧ (fsmMach forward31 []).events = []) :=
  ⟨⟨rfl, rfl, rfl⟩, ⟨rfl, rfl⟩, ⟨rfl, rfl, rfl⟩, ⟨rfl, rfl⟩⟩
theorem witness_PresentedTableWordRunsNext : decodeTableWord 8 4 = some .cmdStop ∧ decodeTableWord 2 3 = some .evTick := by
  decide
theorem witness_StepServesExactlyOneInput :
    nextOf (mach resting [.word 0b000#3, .reset]) = some (mach resting [.reset]) ∧
      nextOf (fsmMach resting [.word 0b11#2, .reset]) = some (fsmMach resting [.reset]) := by decide
theorem witness_BlockTakesOnlyStimuliAndReset :
    (mach reverse0 [.word 0b001#3]).drive = .stim3 ∧ (nextOf (mach reverse0 [.word 0b001#3])).isSome = true ∧
      (nextOf (mach reverse0 [.reset])).isSome = true ∧ (nextOf (mach reverse0 [])).isSome = true := by decide
theorem witness_TickComesOnlyFromTheDivider :
    (mach reverse0 [.word 0b001#3]).drive = .stim3 ∧ (∀ rest, (mach reverse0 [.word 0b001#3]).input ≠ .reset :: rest) ∧
      (nextOf (mach reverse0 [.word 0b001#3])).map State.label = some (some { amp := 32#6, pol := 5#4 }) :=
  ⟨rfl, fun rest h => by simp [mach] at h, by decide⟩
theorem witness_OnlyReservedWordsAreRefused :
    (mach resting [.word 0b101#3]).drive = .stim3 ∧ ∃ (w : StimWord) (rest : List Input),
      (mach resting [.word 0b101#3]).input = .word w :: rest ∧ 5 ≤ w.toNat ∧
        Refusal.reservedStimulus 0b101#3 = .reservedStimulus w :=
  ⟨rfl, 0b101#3, [], rfl, by decide, rfl⟩
theorem witness_FaultOutcomesComeFirst_fault : (mach faulted []).block.fault ≠ none := by decide
theorem witness_FaultOutcomesComeFirst_code :
    (blk 0b101#3 0#5 0#5 0#6 0#4).fault = none ∧ 5 ≤ (blk 0b101#3 0#5 0#5 0#6 0#4).state.toNat := by decide
theorem witness_FaultOutcomesComeFirst_div :
    (blk 0b000#3 0#5 26#5 0#6 0#4).fault = none ∧ 26 ≤ (blk 0b000#3 0#5 26#5 0#6 0#4).div.toNat := by decide
theorem witness_FaultLastsUntilReset :
    (mach faulted [.word 0b001#3]).block.fault ≠ none ∧
      (∀ x ∈ (mach faulted [.word 0b001#3]).input.take 1, x ≠ .reset) ∧
      nextOf (mach faulted [.word 0b001#3]) = some (mach faulted []) ∧
      (∀ x ∈ (fsmMach faulted [.word 0b11#2]).events.take 1, x ≠ .reset) ∧
      nextOf (fsmMach faulted [.word 0b11#2]) = some (fsmMach faulted []) := by decide
theorem witness_DecoderIsTheOpcodeTable :
    ∃ r ∈ opcodeTable, r.covers (.stim 0b100#3) = true ∧ r.instr = .cmdStop := by decide
/-- The fault clauses of NopChangesNothing, HwtickCountsAndTicks and CommandsDeliverTheirEvents, at the least illegal code
and the least illegal `DIV`. -/
theorem witness_fault_clauses_of_nop_hwtick_commands :
    faulted.fault ≠ none ∧
      ((blk 0b101#3 0#5 25#5 0#6 0#4).fault = none ∧ 5 ≤ (blk 0b101#3 0#5 25#5 0#6 0#4).state.toNat) ∧
      ((blk 0b100#3 0#5 26#5 0#6 0#4).fault = none ∧ 26 ≤ (blk 0b100#3 0#5 26#5 0#6 0#4).div.toNat) := by decide
theorem witness_NopChangesNothing_ready : forward31.Ready := forward31_readyIn.ready
theorem witness_HwtickCountsAndTicks_silent : forward31.Ready ∧ forward31.div ≠ 0#5 :=
  ⟨forward31_readyIn.ready, by decide⟩
theorem witness_HwtickCountsAndTicks_tick : reverse0.Ready ∧ reverse0.div = 0#5 := ⟨reverse0_readyIn.ready, rfl⟩
theorem witness_AdvanceRows : resting.ReadyIn .stopped ∧ reverse0.ReadyIn .reverse ∧ forward31.ReadyIn .forward :=
  ⟨resting_readyIn, reverse0_readyIn, forward31_readyIn⟩
/-- A HWTICK that meets `DIV = 25` counts on and fires nothing; the list is the longest one before the next would fire. -/
theorem witness_AdvanceRows_until_tick :
    (mach (blk 0b000#3 8#5 25#5 16#6 4#4) []).block.ReadyIn .stopped ∧
      exec .cmdAdvance (mach (blk 0b000#3 8#5 25#5 16#6 4#4) []) = .next (mach (blk 0b001#3 8#5 25#5 16#6 4#4) []) ∧
      (∀ x ∈ [Item.word 0b001#3, .word 0b100#3], x ≠ .reset) ∧
      ∀ pre post, [Item.word 0b001#3, .word 0b100#3] = pre ++ .word 0b001#3 :: post →
        (runFrom (blk 0b001#3 8#5 25#5 16#6 4#4) pre).block.div ≠ 0#5 := by
  refine ⟨⟨rfl, rfl, by decide⟩, rfl, by decide, ?_⟩
  intro pre post h
  match pre, h with
  | [], _ => decide
  | [_], h => simp at h
  | _ :: _ :: _, h => simp at h
theorem witness_AdvanceRows_until_event_tick :
    exec .evAdvance (fsmMach resting []) = .next (fsmMach (blk 0b001#3 8#5 0#5 16#6 4#4) []) ∧
      ∀ x ∈ [Item.word 0b10#2, .word 0b00#2], x ≠ .reset ∧ x ≠ .word 0b11#2 := ⟨rfl, by decide⟩
theorem witness_RetreatRows : resting.ReadyIn .stopped ∧ brakingF7.ReadyIn .brakingForward :=
  ⟨resting_readyIn, brakingF7_readyIn⟩
theorem witness_StopRows :
    forward31.ReadyIn .forward ∧ brakingR24.ReadyIn .brakingReverse ∧ reverse0.ReadyIn .reverse :=
  ⟨forward31_readyIn, brakingR24_readyIn, reverse0_readyIn⟩
theorem witness_TickRows_rest : resting.ReadyIn .stopped := resting_readyIn
theorem witness_TickRows_forward : forward31.ReadyIn .forward := forward31_readyIn
theorem witness_TickRows_braking_off_boundary : brakingF7.ReadyIn .brakingForward ∧ brakingF7.idx.toNat % 8 ≠ 0 :=
  ⟨brakingF7_readyIn, by decide⟩
theorem witness_TickRows_reverse : reverse0.ReadyIn .reverse := reverse0_readyIn
theorem witness_TickRows_braking_on_boundary : brakingR24.ReadyIn .brakingReverse ∧ brakingR24.idx.toNat % 8 = 0 :=
  ⟨brakingR24_readyIn, by decide⟩
theorem witness_RestIgnoresTicks :
    resting.ReadyIn .stopped ∧ resting.div = 0#5 ∧
      ∀ x ∈ [Item.word 0b11#2, .word 0b10#2], x = .word 0b11#2 ∨ x = .word 0b10#2 :=
  ⟨resting_readyIn, rfl, by decide⟩
theorem witness_CommandsDeliverTheirEvents : forward31.ReadyIn .forward := forward31_readyIn
theorem witness_CommandFrame :
    after .cmdStop forward31 = some (blk 0b010#3 31#5 25#5 27#6 9#4, none) ∧ forward31.state.toNat ≤ 4 ∧
      forward31.div.toNat ≤ 25 := by decide
theorem witness_DividerAndTickFrame :
    after .hwtick brakingF7 = some (blk 0b010#3 7#5 2#5 5#6 5#4, none) ∧ brakingF7.div ≠ 0#5 := by decide
theorem witness_RegistersHaveOneOwner :
    ¬ Sys2Proof.Claims.servesReset (mach reverse0 [.word 0b001#3]) ∧
      (nextOf (mach reverse0 [.word 0b001#3])).map State.block = some (blk 0b011#3 31#5 1#5 32#6 5#4) ∧
      ¬ Sys2Proof.Claims.servesReset (fsmMach reverse0 [.word 0b11#2]) ∧
      (nextOf (fsmMach reverse0 [.word 0b11#2])).map State.block = some (blk 0b011#3 31#5 0#5 32#6 5#4) :=
  ⟨by simp [Sys2Proof.Claims.servesReset, mach], by decide, by simp [Sys2Proof.Claims.servesReset, fsmMach], by decide⟩
theorem witness_OutputLatchIsNeverRead : after .evTick reverse0 = some (blk 0b011#3 31#5 0#5 32#6 5#4, some { amp := 32#6, pol := 5#4 }) := by
  decide
theorem witness_OnlyTheDividerReadsDiv :
    Instr.evTick ≠ .hwtick ∧ forward31.div.toNat ≤ 25 ∧ (0#5 : DivCount).toNat ≤ 25 ∧ (after .evTick forward31).isSome = true := by
  decide
theorem witness_LatchHoldsTheLastEmission :
    (nextOf (mach reverse0 [.word 0b001#3])).map State.label = some (some { amp := 32#6, pol := 5#4 }) ∧
      (nextOf (mach reverse0 [.word 0b000#3])).map State.label = some none := by decide
theorem witness_WaveformsAreCalledOnlyByTheirRows :
    (after .hwtick reverse0).map Prod.snd = some (some { amp := 32#6, pol := 5#4 }) ∧
      Sys2Proof.Claims.servesReset (mach reverse0 [.reset]) ∧
      (nextOf (mach reverse0 [.reset])).map State.label = some (some { amp := 16#6, pol := 1#4 }) ∧
      Sys2Proof.Claims.servesReset (fsmMach reverse0 [.reset]) ∧
      (nextOf (fsmMach reverse0 [.reset])).map State.label = some (some { amp := 16#6, pol := 1#4 }) :=
  ⟨by decide, .inl ⟨rfl, [], rfl⟩, by decide, .inr ⟨rfl, [], rfl⟩, by decide⟩
theorem witness_StepKeepsRanges :
    (blk 0b100#3 31#5 25#5 32#6 15#4).InRange ∧ (nextOf (mach (blk 0b100#3 31#5 25#5 32#6 15#4) [])).isSome = true :=
  ⟨⟨by decide, by decide, by decide, by decide⟩, by decide⟩
theorem witness_StepKeepsReady : forward31.Ready ∧ (nextOf (mach forward31 [.word 0b001#3])).isSome = true :=
  ⟨forward31_readyIn.ready, by decide⟩
theorem witness_StepKeepsSound : resting.Sound ∧ (nextOf (mach resting [.word 0b010#3])).isSome = true :=
  ⟨resting_sound, by decide⟩
theorem witness_EveryReachableStateIsSound :
    Sys2Proof.core.run 1 { State.reset with drive := .stim3, input := [.word 0b010#3], events := [] } =
      .next (mach (blk 0b001#3 0#5 0#5 16#6 1#4) []) ∧
    Sys2Proof.core.run 1 { State.reset with drive := .evt2, input := [], events := [.word 0b00#2] } =
      .next (fsmMach (blk 0b001#3 0#5 0#5 16#6 1#4) []) :=
  ⟨(core_run_of_next (n := 0) rfl).trans (core_run_zero _), (core_run_of_next (n := 0) rfl).trans (core_run_zero _)⟩
theorem witness_MotionStartsOnABoundary :
    resting.ParksOnBoundary ∧ resting.state = codeOf .stopped ∧
      (nextOf (mach resting [.word 0b010#3])).map (fun t => t.block.state) = some (codeOf .forward) :=
  ⟨fun _ => by decide, rfl, by decide⟩
theorem witness_CommandsAreIdempotent : (after .cmdRetreat forward31).isSome = true ∧ (after .evAdvance faulted).isSome = true := by
  decide
theorem witness_DirectionChangesOnlyThroughStopped :
    forward31.state = codeOf .forward ∧ (after .evTick forward31).isSome = true ∧ reverse0.state = codeOf .reverse ∧
      (after .evTick reverse0).isSome = true := by decide
theorem witness_OrderOfCommandsMatters : resting.ReadyIn .stopped := resting_readyIn
theorem witness_SilentHwtickCommutesWithCommands :
    ((0b100#3 : StimWord) = 0b010#3 ∨ (0b100#3 : StimWord) = 0b011#3 ∨ (0b100#3 : StimWord) = 0b100#3) ∧
      forward31.div ≠ 0#5 := by decide
theorem witness_DividerCountsHwticks :
    forward31.Ready ∧ ∀ x ∈ [Item.word 0b001#3, .word 0b000#3], x ≠ .reset :=
  ⟨forward31_readyIn.ready, by decide⟩
theorem witness_HwticksMoveAtTheStepRate : forward31.ReadyIn .forward ∧ reverse0.ReadyIn .reverse :=
  ⟨forward31_readyIn, reverse0_readyIn⟩
theorem witness_StepExpansionIsExactlyKTicks : brakingF7.Ready ∧ 1 ≤ 1 := ⟨brakingF7_readyIn.ready, by decide⟩
theorem witness_AssemblerTracksTheDivider :
    brakingF7.Ready ∧ (Line.wellFormed (.step 1) = true ∧ Line.fitsFormat .stim3 (.step 1) = true) ∧
      (Line.wellFormed (.instr .evTick 1) = true ∧ Line.fitsFormat .evt2 (.instr .evTick 1) = true) ∧
      (Line.fitsFormat .stim3 .reset = true ∧ Line.fitsFormat .evt2 .reset = true) :=
  ⟨brakingF7_readyIn.ready, by decide, by decide, by decide⟩
theorem witness_TicksGoRoundTheCycle : forward31.ReadyIn .forward ∧ reverse0.ReadyIn .reverse :=
  ⟨forward31_readyIn, reverse0_readyIn⟩
theorem witness_ForwardThenBackReturns : resting.ReadyIn .stopped ∧ (resting.idx.toNat + 8) % 8 = 0 :=
  ⟨resting_readyIn, by decide⟩
theorem witness_BrakingParksOnTheNextBoundary :
    (brakingF7.ReadyIn .brakingForward ∧ 1 = (8 - brakingF7.idx.toNat % 8) % 8) ∧
      (brakingR24.ReadyIn .brakingReverse ∧ 0 = brakingR24.idx.toNat % 8) :=
  ⟨⟨brakingF7_readyIn, by decide⟩, ⟨brakingR24_readyIn, by decide⟩⟩
theorem witness_BrakingCannotBeCancelled :
    (∀ x ∈ [Item.word 0b11#2, .word 0b00#2], x ≠ .reset) ∧
      (brakingF7.ReadyIn .brakingForward ∧
        [Item.word 0b11#2, .word 0b00#2].count (.word 0b11#2) = (8 - brakingF7.idx.toNat % 8) % 8) ∧
      (∀ x ∈ [Item.word 0b01#2], x ≠ .reset) ∧
      (brakingR24.ReadyIn .brakingReverse ∧ [Item.word 0b01#2].count (.word 0b11#2) = brakingR24.idx.toNat % 8) :=
  ⟨by decide, ⟨brakingF7_readyIn, by decide⟩, by decide, ⟨brakingR24_readyIn, by decide⟩⟩
theorem witness_BrakingEndsWithin208Hwticks : brakingF7.ReadyIn .brakingForward ∧ brakingR24.ReadyIn .brakingReverse :=
  ⟨brakingF7_readyIn, brakingR24_readyIn⟩
theorem witness_RefusedWordsLeaveNoTrace :
    ∃ w : StimWord, 5 ≤ w.toNat ∧ Item.word w ∈ [Item.word 0b111#3, .reset] := ⟨0b111#3, by decide, by decide⟩
theorem witness_MachineStepsFollowTheRun :
    ((mach resting [.word 0b100#3, .reset, .word 0b111#3]).drive = .stim3 ∧
      (mach resting [.word 0b100#3, .reset, .word 0b111#3]).input = [.word 0b100#3, .reset] ++ [.word 0b111#3] ∧
      ∀ w : StimWord, .word w ∈ [Item.word 0b100#3, .reset] → w.toNat ≤ 4) ∧
    ((fsmMach resting [.word 0b11#2, .reset]).drive = .evt2 ∧
      (fsmMach resting [.word 0b11#2, .reset]).events = [.word 0b11#2] ++ [.reset]) := by decide
theorem witness_ServiceOrdersExist_off :
    ({} : Config.Environment).tickFirst = false ∧ [Instr.cmdStop, .hwtick].Perm [.hwtick, .cmdStop] :=
  ⟨rfl, List.Perm.swap _ _ _⟩
/-- With `TICK_FIRST` on, the tick first is an admitted order of a waiting command and tick, the command first is not. -/
theorem witness_ServiceOrdersExist_on :
    ({ tickFirst := true } : Config.Environment).tickFirst = true ∧
      ServiceOrder { tickFirst := true } [.cmdStop, .hwtick] [.hwtick, .cmdStop] ∧
      ¬ ServiceOrder { tickFirst := true } [.cmdStop, .hwtick] [.cmdStop, .hwtick] :=
  ⟨rfl, ⟨List.Perm.swap _ _ _, fun _ => by decide⟩, fun h => absurd (h.2 rfl) (by decide)⟩

end Sys2Proof.Tests
end

section
/-! PROOFS. The two fields derived from an index (10_state.md R22): their values as numbers and their bits. Both are
slices of the index, so a value is a shift and a remainder, and a bit is a bit of the index at the slice's offset. -/

namespace Sys2Proof.Machine

@[simp] theorem quad_toNat (i : StepIndex) : (quad i).toNat = i.toNat / 8 := by
  have hi : i.toNat < 32 := i.isLt
  rw [quad, BitVec.extractLsb'_toNat, Nat.shiftRight_eq_div_pow]
  omega

@[simp] theorem sub_toNat (i : StepIndex) : (sub i).toNat = i.toNat % 16 := by
  rw [sub, BitVec.extractLsb'_toNat, Nat.shiftRight_zero]

theorem quad_getLsbD (i : StepIndex) {k : Nat} (hk : k < 2) : (quad i).getLsbD k = i.getLsbD (3 + k) := by
  simp [quad, hk]

theorem sub_getLsbD (i : StepIndex) {k : Nat} (hk : k < 4) : (sub i).getLsbD k = i.getLsbD k := by
  simp [sub, hk]

/-- Settles O13: the values are `quad_toNat` and `sub_toNat`; bit 3 of the index is bit 0 of the slice that starts
at 3 and bit 3 of the slice that starts at 0. -/
theorem quadrantAndSubindexFields : Obligations.QuadrantAndSubindexFields := fun i =>
  ⟨quad_toNat i, sub_toNat i, quad_getLsbD i (by decide), sub_getLsbD i (by decide)⟩

end Sys2Proof.Machine
end

section
/-! PROOFS. The stimuli of the divider (40_divider.md R60, R61). The fault outcomes are the same for every instruction, so
they are said once of `exec`; what is left of HWTICK is its rule in two cases, a silent count and a TICK before the count. -/

namespace Sys2Proof.Machine

/-- With `FAULT` set, an instruction only clears the label (R18). -/
theorem exec_of_fault {s : State} (i : Instr) (h : s.block.fault ≠ none) :
    exec i s = .next { s with label := none } := by
  obtain ⟨r, hr⟩ := Option.ne_none_iff_exists'.mp h
  rw [exec_eq, blockStep_of_fault hr]
  rfl

/-- From an illegal state, an instruction only raises the fault (R107). -/
theorem exec_of_illegal {s : State} (i : Instr) (h : s.block.fault = none)
    (hl : 5 ≤ s.block.state.toNat ∨ 26 ≤ s.block.div.toNat) :
    exec i s = .next { s with block := { s.block with fault := some .illegalState }, label := none } := by
  rw [exec_eq, blockStep_of_illegal h hl]
  rfl

/-- From a ready state, an instruction commits its own rule. -/
theorem exec_of_readyIn {s : State} {m : MotorState} (i : Instr) (h : s.block.ReadyIn m) :
    exec i s = .next (s.commit (ruleOf i m s.block)) := by
  rw [exec_eq, blockStep_of_readyIn h]

theorem hwtickRule_of_div_ne_zero {b : Block} (m : MotorState) (h : b.div ≠ 0#5) :
    hwtickRule m b = (b.setDiv (divNext b.div), none) := by
  simp [hwtickRule, h]

/-- The TICK keeps `DIV`, so the count that follows it goes from 0 to 1. -/
theorem hwtickRule_of_div_eq_zero {b : Block} (m : MotorState) (h : b.div = 0#5) :
    hwtickRule m b = ((applyEvent .tick m b).1.setDiv 1#5, (applyEvent .tick m b).2) := by
  have hnext : divNext 0#5 = 1#5 := rfl
  simp [hwtickRule, h, hnext]

/-- Settles O17: a ready block meets NOP's rule, which is the identity without an emission. -/
theorem nopChangesNothing : Obligations.NopChangesNothing := by
  refine ⟨decode_encode .nop, fun s => ⟨exec_of_fault .nop, exec_of_illegal .nop, fun hr => ?_⟩⟩
  obtain ⟨m, hm⟩ := hr.readyIn
  exact exec_of_readyIn .nop hm

/-- Settles O18: a ready block meets HWTICK's rule, which with `DIV` not 0 is the silent count and with `DIV = 0` is the
rule of EV_TICK followed by the count to 1. -/
theorem hwtickCountsAndTicks : Obligations.HwtickCountsAndTicks := by
  refine ⟨decode_encode .hwtick, fun s =>
    ⟨exec_of_fault .hwtick, exec_of_illegal .hwtick, fun hr hd => ?silent, fun hr hd => ?tick⟩⟩
  all_goals obtain ⟨m, hm⟩ := hr.readyIn
  case silent =>
    rw [exec_of_readyIn .hwtick hm, ruleOf, hwtickRule_of_div_ne_zero m hd]
    rfl
  case tick =>
    refine ⟨s.commit (applyEvent .tick m s.block), exec_of_readyIn .evTick hm, ?_⟩
    rw [exec_of_readyIn .hwtick hm, ruleOf, hwtickRule_of_div_eq_zero m hd]
    rfl

end Sys2Proof.Machine
end

section
/-! PROOFS. The moving waveform (41_waveform.md R64). A table is its printed list of numbers (R37, R38), a read at an index
within the table is an entry of that list, and the two index fields select the entries (10_state.md R22). -/

namespace Sys2Proof.Machine

theorem ampLut_values :
    ampLut.toList.map BitVec.toNat = [32, 31, 27, 22, 16, 10, 5, 1, 0, 1, 5, 10, 16, 22, 27, 31] := rfl

theorem mpolLut_values : mpolLut.toList.map BitVec.toNat = [5, 6, 10, 9] := rfl

/-- A read within a table, as an entry of the table's list of numbers. -/
theorem some_toNat_getElem {n w k : Nat} (v : Vector (BitVec w) n) (hk : k < n) :
    some v[k].toNat = (v.toList.map BitVec.toNat)[k]? := by
  rw [List.getElem?_map, Vector.getElem?_toList, Vector.getElem?_eq_getElem hk, Option.map_some]

theorem some_readAmpLut_toNat (j : BitVec 4) :
    some (readAmpLut j).toNat =
      ([32, 31, 27, 22, 16, 10, 5, 1, 0, 1, 5, 10, 16, 22, 27, 31] : List Nat)[j.toNat]? := by
  rw [readAmpLut, some_toNat_getElem, ampLut_values]

theorem some_readMpolLut_toNat (q : BitVec 2) :
    some (readMpolLut q).toNat = ([5, 6, 10, 9] : List Nat)[q.toNat]? := by
  rw [readMpolLut, some_toNat_getElem, mpolLut_values]

/-- Settles O14: the amplitude table is read at `sub i`, the index modulo 16, and the moving polarity table at `quad i`, the
index divided by 8. -/
theorem movingWaveformReadsTheTables : Obligations.MovingWaveformReadsTheTables := fun i =>
  ⟨sub_toNat i ▸ some_readAmpLut_toNat (sub i), quad_toNat i ▸ some_readMpolLut_toNat (quad i)⟩

end Sys2Proof.Machine
end

section
/-! PROOFS. The command rows of the transition table (42_state_machine.md R71 to R99). A command's event sets the motion
state and nothing else, so each row is read off `fsm`; ADVANCE, RETREAT and STOP share one lemma for command and event. -/

namespace Sys2Proof.Machine

/-- A block already stands in the motion state it is ready in. -/
theorem Block.ReadyIn.set_same_state {b : Block} {m : MotorState} (h : b.ReadyIn m) :
    ({ b with state := codeOf m } : Block) = b := by
  obtain ⟨-, hs, -⟩ := h
  rw [← hs]

/-- No row of a command's event moves the index (R97 to R99). -/
theorem fsm_idx_of_command {e : Event} (he : e ≠ .tick) (m : MotorState) (i : StepIndex) : (fsm m i e).idx = i := by
  cases e
  case tick => exact absurd rfl he
  all_goals cases m <;> rfl

/-- From a ready state, an instruction that delivers a command's event only sets the motion state that `fsm` answers. -/
theorem exec_of_command {s : State} {m : MotorState} {i : Instr} {e : Event} (h : s.block.ReadyIn m)
    (hi : ruleOf i = applyEvent e) (he : e ≠ .tick) :
    exec i s = .next
      { s with block := { s.block with state := codeOf (fsm m s.block.idx e).state }, label := none } := by
  rw [exec_of_readyIn i h, hi, applyEvent_command he]
  rfl

theorem ruleOf_advance {i : Instr} (hi : i = .cmdAdvance ∨ i = .evAdvance) : ruleOf i = applyEvent .advance := by
  rcases hi with rfl | rfl <;> rfl

theorem ruleOf_retreat {i : Instr} (hi : i = .cmdRetreat ∨ i = .evRetreat) : ruleOf i = applyEvent .retreat := by
  rcases hi with rfl | rfl <;> rfl

theorem ruleOf_stop {i : Instr} (hi : i = .cmdStop ∨ i = .evStop) : ruleOf i = applyEvent .stop := by
  rcases hi with rfl | rfl <;> rfl

/-- A command whose row keeps the motion state changes nothing. -/
theorem exec_of_idle_command {s : State} {m : MotorState} {i : Instr} {e : Event} (h : s.block.ReadyIn m)
    (hi : ruleOf i = applyEvent e) (he : e ≠ .tick) (hm : (fsm m s.block.idx e).state = m) :
    exec i s = .next { s with label := none } := by
  rw [exec_of_command h hi he, hm, h.set_same_state]

/-- Settles O20: the RETREAT row of each motion state. -/
theorem retreatRows : Obligations.RetreatRows := by
  refine ⟨decode_encode .evRetreat, fun s m i h hi => ?_⟩
  rw [exec_of_command h (ruleOf_retreat hi) (by decide)]
  cases m <;> rfl

/-- Settles O21: the STOP row of each motion state, and the two rows in which another command keeps a moving state. -/
theorem stopRows : Obligations.StopRows := by
  refine ⟨decode_encode .evStop, fun s m i h hi => ?_, fun s i h hi => ?_, fun s i h hi => ?_⟩
  · rw [exec_of_command h (ruleOf_stop hi) (by decide)]
    cases m <;> rfl
  · exact exec_of_idle_command h (ruleOf_advance hi) (by decide) rfl
  · exact exec_of_idle_command h (ruleOf_retreat hi) (by decide) rfl

/-- Settles O24: the fault outcomes are those of every instruction, and a ready block meets its event's row, which keeps the
index. -/
theorem commandsDeliverTheirEvents : Obligations.CommandsDeliverTheirEvents := by
  refine ⟨decode_encode .cmdAdvance, decode_encode .cmdRetreat, decode_encode .cmdStop, fun i e hie s =>
    ⟨exec_of_fault i, exec_of_illegal i, fun m h => ?_⟩⟩
  have hrule : ruleOf i = applyEvent e ∧ e ≠ .tick := by
    rcases hie with ⟨rfl, rfl⟩ | ⟨rfl, rfl⟩ | ⟨rfl, rfl⟩ <;> exact ⟨rfl, by decide⟩
  obtain ⟨hi, he⟩ := hrule
  rw [exec_of_command h hi he, fsm_idx_of_command he]

end Sys2Proof.Machine
end

section
/-! PROOFS. The TICK rows of the transition table (42_state_machine.md R74 to R96), in the four things a TICK can do to a
ready block: nothing, a step forward, a step backward, and parking. -/

namespace Sys2Proof.Machine

theorem applyEvent_tick_at_rest {b : Block} (h : b.ReadyIn .stopped) : applyEvent .tick .stopped b = (b, none) := by
  rw [applyEvent_tick]
  simp only [h.set_same_state]

theorem applyEvent_tick_forward {b : Block} {m : MotorState} (h : b.ReadyIn m)
    (hm : m = .forward ∨ m = .brakingForward ∧ b.idx.toNat % 8 ≠ 0) :
    applyEvent .tick m b =
      (({ b with idx := idxForward b.idx } : Block).emit (movingWaveform b.idx), some (movingWaveform b.idx)) := by
  obtain ⟨-, hs, -⟩ := h
  rcases hm with rfl | ⟨rfl, hb⟩
  · simp only [applyEvent_tick, ← hs]
  · simp only [applyEvent_tick, if_neg hb, ← hs]

theorem applyEvent_tick_backward {b : Block} {m : MotorState} (h : b.ReadyIn m)
    (hm : m = .reverse ∨ m = .brakingReverse ∧ b.idx.toNat % 8 ≠ 0) :
    applyEvent .tick m b =
      (({ b with idx := idxBackward b.idx } : Block).emit (movingWaveform b.idx), some (movingWaveform b.idx)) := by
  obtain ⟨-, hs, -⟩ := h
  rcases hm with rfl | ⟨rfl, hb⟩
  · simp only [applyEvent_tick, ← hs]
  · simp only [applyEvent_tick, if_neg hb, ← hs]

theorem applyEvent_tick_parks {b : Block} {m : MotorState} (hm : m = .brakingForward ∨ m = .brakingReverse)
    (hb : b.idx.toNat % 8 = 0) :
    applyEvent .tick m b =
      (({ b with state := codeOf .stopped } : Block).emit (parkingWaveform b.idx), some (parkingWaveform b.idx)) := by
  rcases hm with rfl | rfl <;> simp only [applyEvent_tick, if_pos hb]

/-- From a ready state, EV_TICK commits what its row does to the block. -/
theorem exec_evTick_of_row {s : State} {m : MotorState} {r : Block × Option Output} (h : s.block.ReadyIn m)
    (hr : applyEvent .tick m s.block = r) : exec .evTick s = .next (s.commit r) :=
  hr ▸ exec_of_readyIn .evTick h

theorem exec_evTick_at_rest {s : State} (h : s.block.ReadyIn .stopped) :
    exec .evTick s = .next { s with label := none } :=
  exec_evTick_of_row h (applyEvent_tick_at_rest h)

/-- Settles O22: the hypothesis of each clause says in which motion states, and on which side of the boundary test, its row
acts. -/
theorem tickRows : Obligations.TickRows := by
  refine ⟨decode_encode .evTick, fun s => ⟨exec_evTick_at_rest, ?forward, ?backward, ?parks⟩⟩
  case forward =>
    rintro (h | ⟨h, hb⟩)
    · exact exec_evTick_of_row h (applyEvent_tick_forward h (.inl rfl))
    · exact exec_evTick_of_row h (applyEvent_tick_forward h (.inr ⟨rfl, hb⟩))
  case backward =>
    rintro (h | ⟨h, hb⟩)
    · exact exec_evTick_of_row h (applyEvent_tick_backward h (.inl rfl))
    · exact exec_evTick_of_row h (applyEvent_tick_backward h (.inr ⟨rfl, hb⟩))
  case parks =>
    rintro ⟨h | h, hb⟩
    · exact exec_evTick_of_row h (applyEvent_tick_parks (.inl rfl) hb)
    · exact exec_evTick_of_row h (applyEvent_tick_parks (.inr rfl) hb)

end Sys2Proof.Machine
end

section
/-! PROOFS. Runs in which nothing is emitted: at rest (42_state_machine.md R74), and between a start and its first TICK
(R71). One induction over the items serves both ports. -/

namespace Sys2Proof.Machine

/-- An instruction decoded from a word is the one that word encodes. -/
theorem encode_of_decode {p : PortWord} {i : Instr} (h : decode p = .ok i) : encode i = p := by
  rcases decode_cases p with ⟨j, hj, he⟩ | ⟨w, -, -, hr⟩
  · obtain rfl : j = i := by simpa [hj] using h
    exact he
  · simp [hr] at h

theorem Run.emissions_eq_nil_iff (r : Run) : r.emissions = [] ↔ ∀ l ∈ r.labels, l = none := by
  simp [Run.emissions]

/-- A predicate that holds at first and that each accepted word keeps without an emission holds after the run, and the run
emits nothing. A refused word has no step (R105). -/
theorem runWith_silent_invariant {α : Type} {dec : α → Except DecodeRefusal Instr} {P : Block → Prop} {b : Block}
    (xs : List (Item α)) (hb : P b) (hreset : ∀ x ∈ xs, x ≠ .reset)
    (hstep : ∀ pre w post i, xs = pre ++ .word w :: post → dec w = .ok i → P (runWith dec b pre).block →
      P (blockStep i (runWith dec b pre).block).1 ∧ (blockStep i (runWith dec b pre).block).2 = none) :
    P (runWith dec b xs).block ∧ (runWith dec b xs).emissions = [] := by
  induction xs using List.reverseRecOn with
  | nil => exact ⟨hb, rfl⟩
  | append_singleton xs x ih =>
    have hbefore : P (runWith dec b xs).block ∧ (runWith dec b xs).emissions = [] :=
      ih (fun y hy => hreset y (by simp [hy])) fun pre w post i h =>
        hstep pre w (post ++ [x]) i (by simp [h])
    obtain ⟨hP, hnone⟩ := hbefore
    rw [Run.emissions_eq_nil_iff] at hnone
    cases x with
    | reset => exact absurd rfl (hreset .reset (by simp))
    | word w =>
      rw [Run.emissions_eq_nil_iff, runWith_append]
      cases hw : dec w with
      | error r => simpa [runWith_refused hw] using ⟨hP, hnone⟩
      | ok i =>
        obtain ⟨hP', hlabel⟩ := hstep xs w [] i rfl hw hP
        simp only [runWith_word hw, runWith_nil, List.mem_append, List.mem_singleton]
        exact ⟨hP', fun l hl => hl.elim (hnone l) (fun h => h.trans hlabel)⟩

/-- The instruction delivers a TICK to the Motion State Machine: EV_TICK, or HWTICK at `DIV = 0` (R60, R96). -/
def DeliversTick (i : Instr) (b : Block) : Prop :=
  i = .evTick ∨ i = .hwtick ∧ b.div = 0#5

/-- A rule that delivers no TICK keeps the latch and emits nothing. -/
theorem ruleOf_drives {i : Instr} {b : Block} {o : Output} (m : MotorState) (hi : ¬ DeliversTick i b) (h : b.Drives o) :
    (ruleOf i m b).1.Drives o ∧ (ruleOf i m b).2 = none := by
  have hcommand : ∀ e : Event, e ≠ .tick → (applyEvent e m b).1.Drives o ∧ (applyEvent e m b).2 = none := by
    intro e he
    rw [applyEvent_command he]
    exact ⟨h, rfl⟩
  cases i with
  | nop => exact ⟨h, rfl⟩
  | hwtick =>
    have hdiv : b.div ≠ 0#5 := fun hd => hi (.inr ⟨rfl, hd⟩)
    rw [ruleOf, hwtickRule_of_div_ne_zero m hdiv]
    exact ⟨h, rfl⟩
  | cmdAdvance | evAdvance => exact hcommand .advance (by decide)
  | cmdRetreat | evRetreat => exact hcommand .retreat (by decide)
  | cmdStop | evStop => exact hcommand .stop (by decide)
  | evTick => exact absurd (.inl rfl) hi

/-- Nor does the step of such an instruction emit or write the latch, from any block: the fault outcomes do neither. -/
theorem blockStep_drives {i : Instr} {b : Block} {o : Output} (hi : ¬ DeliversTick i b) (h : b.Drives o) :
    (blockStep i b).1.Drives o ∧ (blockStep i b).2 = none := by
  rcases blockStep_cases i b with ⟨-, hb⟩ | ⟨-, -, hb⟩ | ⟨m, -, hb⟩ <;> rw [hb]
  · exact ⟨h, rfl⟩
  · exact ⟨h, rfl⟩
  · exact ruleOf_drives m hi h

/-- Until a HWTICK meets `DIV = 0`, inputs leave the output as it is (R71). -/
theorem runFrom_drives {b : Block} {o : Output} (h : b.Drives o) {xs : List Input} (hreset : ∀ x ∈ xs, x ≠ .reset)
    (hdiv : ∀ pre post, xs = pre ++ .word 0b001#3 :: post → (runFrom b pre).block.div ≠ 0#5) :
    (runFrom b xs).block.Drives o ∧ (runFrom b xs).emissions = [] := by
  refine runWith_silent_invariant (P := (·.Drives o)) xs h hreset fun pre w post i hxs hw => blockStep_drives ?_
  have henc : encode i = .stim w := encode_of_decode hw
  rintro (rfl | ⟨rfl, hzero⟩)
  · cases henc
  · cases henc
    exact hdiv pre post hxs hzero

/-- Until the TICK event, events leave the output as it is (R71). -/
theorem runEvents_drives {b : Block} {o : Output} (h : b.Drives o) {es : List FsmInput}
    (hes : ∀ x ∈ es, x ≠ .reset ∧ x ≠ .word 0b11#2) :
    (runEvents b es).block.Drives o ∧ (runEvents b es).emissions = [] := by
  refine runWith_silent_invariant (P := (·.Drives o)) es h (fun x hx => (hes x hx).1)
    fun pre w post i hxs hw => blockStep_drives ?_
  have henc : encode i = .evt w := encode_of_decode (p := .evt w) hw
  rintro (rfl | ⟨rfl, -⟩)
  · cases henc
    exact (hes (.word 0b11#2) (by simp [hxs])).2 rfl
  · cases henc

/-- Settles O19: the ADVANCE row of each motion state; the row from rest keeps the latch, and no item up to the first TICK
writes it. -/
theorem advanceRows : Obligations.AdvanceRows := by
  refine ⟨decode_encode .evAdvance, fun s t i h hi hst => ?_, fun s m i h hi => ?_⟩
  · rw [exec_of_command h (ruleOf_advance hi) (by decide)] at hst
    cases hst
    have hdrives : ({ s.block with state := codeOf .forward } : Block).Drives ⟨s.block.outAmp, s.block.outPol⟩ :=
      ⟨rfl, rfl⟩
    refine ⟨fun xs hreset hdiv => ?_, fun es hes => ?_⟩
    · obtain ⟨⟨hamp, hpol⟩, hemit⟩ := runFrom_drives hdrives hreset hdiv
      exact ⟨hamp, hpol, hemit⟩
    · obtain ⟨⟨hamp, hpol⟩, hemit⟩ := runEvents_drives hdrives hes
      exact ⟨hamp, hpol, hemit⟩
  · rw [exec_of_command h (ruleOf_advance hi) (by decide)]
    cases m <;> rfl

/-- A block at rest is a fixed point of STOP and TICK (R73, R74). -/
theorem blockStep_at_rest {b : Block} {i : Instr} (h : b.ReadyIn .stopped) (hi : i = .evTick ∨ i = .evStop) :
    blockStep i b = (b, none) := by
  rw [blockStep_of_readyIn h]
  rcases hi with rfl | rfl
  · exact applyEvent_tick_at_rest h
  · have hstop : (fsm .stopped b.idx .stop).state = .stopped := rfl
    rw [ruleOf, applyEvent_command (by decide), hstop, h.set_same_state]

/-- Settles O23: each clause rests on the TICK row at rest, the last one as the invariant that the block is still the first
one. -/
theorem restIgnoresTicks : Obligations.RestIgnoresTicks := by
  refine fun s h => ⟨exec_evTick_at_rest h, fun hd => ?hwtick, fun es hes => ?events⟩
  case hwtick =>
    rw [exec_of_readyIn .hwtick h, ruleOf, hwtickRule_of_div_eq_zero _ hd, applyEvent_tick_at_rest h]
    rfl
  case events =>
    have hreset : ∀ x ∈ es, x ≠ .reset := by
      intro x hx
      rcases hes x hx with rfl | rfl <;> simp
    refine runWith_silent_invariant (P := (· = s.block)) es rfl hreset fun pre w post i hxs hw hblock => ?_
    have hi : i = .evTick ∨ i = .evStop := by
      have hword := hes (.word w) (by simp [hxs])
      cases hw
      rcases hword with hcode | hcode <;> cases hcode
      · exact .inl rfl
      · exact .inr rfl
    rw [hblock, blockStep_at_rest h hi]
    exact ⟨rfl, rfl⟩

end Sys2Proof.Machine
end

section
/-! PROOFS. Decoding and encoding (30_encoding.md sections 1, 2 and 4). On one word the decoder inverts the encoder in both
directions; sequences, the opcode table and the presented table word follow from that. -/

namespace Sys2Proof.Machine

/-- The words that decode to an instruction: its encoding alone. -/
theorem decode_eq_ok_iff {p : PortWord} {i : Instr} : decode p = .ok i ↔ p = encode i :=
  ⟨fun h => (encode_of_decode h).symm, fun h => h ▸ decode_encode i⟩

/-- The `STIM` decoder on the word of a stimulus. -/
theorem decodeStim_of_encode {w : StimWord} {i : Instr} (h : encode i = .stim w) : decodeStim w = .ok i :=
  decode_eq_ok_iff.mpr h.symm

theorem mapM_decode_cons_eq_ok_iff {p : PortWord} {ps : List PortWord} {is : List Instr} :
    (p :: ps).mapM decode = .ok is ↔ ∃ i js, decode p = .ok i ∧ ps.mapM decode = .ok js ∧ is = i :: js := by
  rw [List.mapM_cons]
  cases decode p with
  | error r => simp [bind, Except.bind]
  | ok i => cases ps.mapM decode <;> simp [bind, Except.bind, pure, Except.pure, eq_comm]

/-- Settles O11, by induction on the words. -/
theorem decodeInvertsEncode : Obligations.DecodeInvertsEncode := by
  intro words
  induction words with
  | nil => intro is; simp [pure, Except.pure, eq_comm]
  | cons p ps ih =>
    intro is
    rw [mapM_decode_cons_eq_ok_iff, eq_comm (a := p :: ps), List.map_eq_cons_iff]
    constructor
    · rintro ⟨i, js, hp, hps, rfl⟩
      exact ⟨i, js, rfl, (decode_eq_ok_iff.mp hp).symm, ((ih js).mp hps).symm⟩
    · rintro ⟨i, js, rfl, hp, hps⟩
      exact ⟨i, js, decode_eq_ok_iff.mpr hp.symm, (ih js).mpr hps.symm, rfl⟩

/-- A row of the opcode table covers one word, the encoding of its instruction. -/
theorem covers_iff {r : OpcodeRow} (hr : r ∈ opcodeTable) (p : PortWord) :
    r.covers p = true ↔ p = encode r.instr := by
  cases p with
  | stim w =>
    have hstim : ∀ r ∈ opcodeTable, ∀ w : StimWord, r.covers (.stim w) = true ↔ .stim w = encode r.instr := by decide
    exact hstim r hr w
  | evt e =>
    have hevt : ∀ r ∈ opcodeTable, ∀ e : EvtWord, r.covers (.evt e) = true ↔ .evt e = encode r.instr := by decide
    exact hevt r hr e

theorem exists_opcodeRow (i : Instr) : ∃ r ∈ opcodeTable, r.instr = i := by
  cases i <;> decide

/-- The opcode table has one row for an instruction. -/
theorem opcodeRow_unique : ∀ r ∈ opcodeTable, ∀ q ∈ opcodeTable, r.instr = q.instr → r = q := by decide

theorem encode_injective {i j : Instr} (h : encode i = encode j) : i = j := by
  simpa using congrArg decode h

/-- Settles O12: the row of an instruction covers what decodes to it, and two rows that cover one word are rows of one
instruction. -/
theorem decoderIsTheOpcodeTable : Obligations.DecoderIsTheOpcodeTable := by
  refine ⟨fun p i => ?_, fun p r q hr hq hrp hqp => ?_⟩
  · rw [decode_eq_ok_iff]
    constructor
    · rintro rfl
      obtain ⟨r, hr, rfl⟩ := exists_opcodeRow i
      exact ⟨r, hr, rfl, (covers_iff hr _).mpr rfl⟩
    · rintro ⟨r, hr, rfl, hcovers⟩
      exact (covers_iff hr p).mp hcovers
  · have hword : encode r.instr = encode q.instr := ((covers_iff hr p).mp hrp).symm.trans ((covers_iff hq p).mp hqp)
    exact opcodeRow_unique r hr q hq (encode_injective hword)

/-- Settles O10: each accepted word is written as its instruction's encoding, and 110 is above 4. -/
theorem wordsDecodeAsTheTablesSay : Obligations.WordsDecodeAsTheTablesSay :=
  ⟨decode_encode .nop, decode_encode .hwtick, decode_encode .cmdAdvance, decode_encode .cmdStop, rfl,
    decode_encode .evRetreat, decode_encode .evTick⟩

/-- Settles O3: a word of the event port decodes to one instruction, so the clauses are the step's own equations. -/
theorem stepRunsDecodedInstruction : Obligations.StepRunsDecodedInstruction := by
  refine fun s => ⟨fun w rest i hd hin hw => step_stim_word hd hin hw, step_stim_idle, fun e rest i hd hev he => ?_,
    step_evt_idle⟩
  cases he
  exact step_evt_word hd hev

/-- Table bits that the decoder reads as an instruction are the word of that instruction. -/
theorem tableWord_of_decodeTableWord {nbits w : Nat} {i : Instr} (h : decodeTableWord nbits w = some i) :
    tableWord nbits w = some (encode i) := by
  unfold decodeTableWord decodeNumber at h
  rw [tableWord]
  cases hp : wordOfNumber (tableFormat nbits) w with
  | none => simp [hp] at h
  | some p =>
    rcases decode_cases p with ⟨j, hj, he⟩ | ⟨v, -, -, hr⟩
    · obtain rfl : j = i := by simpa [hp, hj] using h
      rw [he]
    · simp [hp, hr] at h

/-- An instruction's word, once presented, is what the next step runs, on the word's port. -/
theorem step_present_encode (s : State) (i : Instr) :
    step (s.present (encode i)) = exec i { s with drive := i.format } := by
  have hformat := encode_format i
  cases hp : encode i with
  | stim w =>
    rw [step_stim_word (i := i) rfl rfl (decodeStim_of_encode hp), ← hformat, hp]
    rfl
  | evt e =>
    have hi : decodeEvt e = i := encode_injective ((encode_decodeEvt e).trans hp.symm)
    rw [step_evt_word rfl rfl, hi, ← hformat, hp]
    rfl

/-- Settles O4: what is presented is the word that the table bits were read from. -/
theorem presentedTableWordRunsNext : Obligations.PresentedTableWordRunsNext := by
  intro s nbits w i h
  rw [State.withFetchWord, State.presentTableWord, tableWord_of_decodeTableWord h]
  exact step_present_encode s i

end Sys2Proof.Machine
end

section
/-! PROOFS. The step (00_scope.md section 4, 60_exceptions.md sections 1 and 2). `step_outcomes` says once what a step does
with the item it serves: run the instruction that the item spells, reset, or refuse a reserved word. -/

namespace Sys2Proof.Machine

/-- The instruction that the next step runs, by the item it serves: the one a word encodes, and `NOP` on an idle port. -/
inductive Serves (s : State) : Instr → Prop where
  | stimIdle (hd : s.drive = .stim3) (hin : s.input = []) : Serves s .nop
  | stimWord {i : Instr} {w : StimWord} {rest : List Input} (hd : s.drive = .stim3) (hin : s.input = .word w :: rest)
      (he : encode i = .stim w) : Serves s i
  | evtIdle (hd : s.drive = .evt2) (hev : s.events = []) : Serves s .nop
  | evtWord {i : Instr} {e : EvtWord} {rest : List FsmInput} (hd : s.drive = .evt2) (hev : s.events = .word e :: rest)
      (he : encode i = .evt e) : Serves s i

/-- The next step serves a reserved word of the `STIM` port. -/
def ServesReserved (s : State) (w : StimWord) : Prop :=
  s.drive = .stim3 ∧ 5 ≤ w.toNat ∧ ∃ rest, s.input = .word w :: rest

theorem State.takeItem_of_stim_cons {s : State} {x : Input} {rest : List Input} (hd : s.drive = .stim3)
    (hin : s.input = x :: rest) : s.takeItem = { s with input := rest } := by
  rw [State.takeItem_of_stim hd, hin, List.tail_cons]

theorem State.takeItem_of_evt_cons {s : State} {x : FsmInput} {rest : List FsmInput} (hd : s.drive = .evt2)
    (hev : s.events = x :: rest) : s.takeItem = { s with events := rest } := by
  rw [State.takeItem_of_evt hd, hev, List.tail_cons]

theorem State.takeItem_of_stim_nil {s : State} (hd : s.drive = .stim3) (hin : s.input = []) : s.takeItem = s := by
  rw [State.takeItem_of_stim hd, hin, List.tail_nil, ← hin]

theorem State.takeItem_of_evt_nil {s : State} (hd : s.drive = .evt2) (hev : s.events = []) : s.takeItem = s := by
  rw [State.takeItem_of_evt hd, hev, List.tail_nil, ← hev]

theorem step_of_serves {s : State} {i : Instr} (h : Serves s i) :
    step s = .next (s.takeItem.commit (blockStep i s.block)) := by
  cases h with
  | stimIdle hd hin => rw [step_stim_idle hd hin, exec_eq, State.takeItem_of_stim_nil hd hin]
  | stimWord hd hin he =>
    rw [step_stim_word hd hin (decodeStim_of_encode he), exec_eq, State.takeItem_of_stim_cons hd hin]
  | evtIdle hd hev => rw [step_evt_idle hd hev, exec_eq, State.takeItem_of_evt_nil hd hev]
  | @evtWord i e rest hd hev he =>
    obtain rfl : decodeEvt e = i := encode_injective ((encode_decodeEvt e).trans he.symm)
    rw [step_evt_word hd hev, exec_eq, State.takeItem_of_evt_cons hd hev]

theorem step_of_servesReset {s : State} (h : Claims.servesReset s) : step s = .next s.takeItem.applyReset := by
  rcases h with ⟨hd, rest, hin⟩ | ⟨hd, rest, hev⟩
  · rw [step_stim_reset hd hin, State.takeItem_of_stim_cons hd hin]
  · rw [step_evt_reset hd hev, State.takeItem_of_evt_cons hd hev]

theorem step_of_servesReserved {s : State} {w : StimWord} (h : ServesReserved s w) :
    step s = .refused (.reservedStimulus w) := by
  obtain ⟨hd, hw, rest, hin⟩ := h
  exact step_stim_refused hd hin hw

/-- What a step serves, in every state. -/
theorem served_cases (s : State) : (∃ i, Serves s i) ∨ Claims.servesReset s ∨ ∃ w, ServesReserved s w := by
  cases hd : s.drive with
  | stim3 =>
    rcases hin : s.input with _ | ⟨w | _, rest⟩
    · exact .inl ⟨.nop, .stimIdle hd hin⟩
    · rcases decodeStim_cases w with ⟨i, -, he, -⟩ | ⟨-, hw⟩
      · exact .inl ⟨i, .stimWord hd hin he⟩
      · exact .inr (.inr ⟨w, hd, hw, rest, hin⟩)
    · exact .inr (.inl (.inl ⟨hd, rest, hin⟩))
  | evt2 =>
    rcases hev : s.events with _ | ⟨e | _, rest⟩
    · exact .inl ⟨.nop, .evtIdle hd hev⟩
    · exact .inl ⟨decodeEvt e, .evtWord hd hev (encode_decodeEvt e)⟩
    · exact .inr (.inl (.inr ⟨hd, rest, hev⟩))

/-- What a step answers, in every state, with what it serves. -/
theorem step_outcomes (s : State) :
    (∃ i, Serves s i ∧ step s = .next (s.takeItem.commit (blockStep i s.block))) ∨
      (Claims.servesReset s ∧ step s = .next s.takeItem.applyReset) ∨
      ∃ w, ServesReserved s w ∧ step s = .refused (.reservedStimulus w) := by
  rcases served_cases s with ⟨i, h⟩ | h | ⟨w, h⟩
  · exact .inl ⟨i, h, step_of_serves h⟩
  · exact .inr (.inl ⟨h, step_of_servesReset h⟩)
  · exact .inr (.inr ⟨w, h, step_of_servesReserved h⟩)

/-- What a step that answers a next state has served and done. -/
theorem step_next_cases {s t : State} (h : step s = .next t) :
    (∃ i, Serves s i ∧ t = s.takeItem.commit (blockStep i s.block)) ∨
      (Claims.servesReset s ∧ t = s.takeItem.applyReset) := by
  rcases step_outcomes s with ⟨i, hi, hs⟩ | ⟨hr, hs⟩ | ⟨w, -, hs⟩ <;> rw [h] at hs <;> cases hs
  · exact .inl ⟨i, hi, rfl⟩
  · exact .inr ⟨hr, rfl⟩

/-- A step without a reset has run the instruction it serves. -/
theorem step_next_of_not_reset {s t : State} (h : step s = .next t) (hr : ¬ Claims.servesReset s) :
    ∃ i, Serves s i ∧ t = s.takeItem.commit (blockStep i s.block) :=
  (step_next_cases h).resolve_right fun hreset => hr hreset.1

/-- Settles O2: the item is the reset line, and reset gives one block and one label from every state. -/
theorem resetFromAnyState : Obligations.ResetFromAnyState :=
  fun _ => ⟨fun _ hd hin => step_stim_reset hd hin, fun _ hd hev => step_evt_reset hd hev⟩

/-- Settles O1: the reset state holds the printed values. -/
theorem resetValues : Obligations.ResetValues :=
  ⟨rfl, rfl, rfl, rfl, rfl, rfl, rfl, rfl, rfl, rfl⟩

/-- A step that answers a next state leaves all but the block and the label as taking the item does. -/
theorem step_next_ports {s t : State} (h : step s = .next t) :
    t.drive = s.drive ∧ t.input = s.takeItem.input ∧ t.events = s.takeItem.events := by
  rcases step_next_cases h with ⟨i, -, rfl⟩ | ⟨-, rfl⟩ <;> simp

/-- Settles O5: the ports end as taking the item leaves them, which takes it off the driven one. -/
theorem stepServesExactlyOneInput : Obligations.StepServesExactlyOneInput := by
  intro s t h
  obtain ⟨hdrive, hinput, hevents⟩ := step_next_ports h
  refine ⟨hdrive, fun hd => ?_, fun hd => ?_⟩
  · rw [hinput, hevents, State.takeItem_of_stim hd]
    exact ⟨rfl, rfl⟩
  · rw [hinput, hevents, State.takeItem_of_evt hd]
    exact ⟨rfl, rfl⟩

/-- Settles O6: of the three outcomes of a step only that of a reserved word is a refusal. -/
theorem onlyReservedWordsAreRefused : Obligations.OnlyReservedWordsAreRefused := by
  intro s r
  constructor
  · intro h
    rcases step_outcomes s with ⟨i, -, hs⟩ | ⟨-, hs⟩ | ⟨w, ⟨hd, hw, rest, hin⟩, hs⟩ <;> rw [h] at hs <;> cases hs
    exact ⟨hd, w, rest, hin, hw, rfl⟩
  · rintro ⟨hd, w, rest, hin, hw, rfl⟩
    exact step_stim_refused hd hin hw

/-- Settles O7: an instruction commits its step on the block, and no outcome of a step is a fault. -/
theorem everyInstructionCompletes : Obligations.EveryInstructionCompletes := by
  refine ⟨fun i s => ⟨_, exec_eq i s⟩, fun s f h => ?_⟩
  rcases step_outcomes s with ⟨i, -, hs⟩ | ⟨-, hs⟩ | ⟨w, -, hs⟩ <;> rw [h] at hs <;> cases hs

/-- Settles O8: the first two outcomes of every instruction. -/
theorem faultOutcomesComeFirst : Obligations.FaultOutcomesComeFirst :=
  fun i _ => ⟨exec_of_fault i, exec_of_illegal i⟩

/-- The instructions of the `STIM` port's words. -/
theorem stimulus_of_encode {i : Instr} {w : StimWord} (h : encode i = .stim w) :
    i = .nop ∨ i = .hwtick ∨ i = .cmdAdvance ∨ i = .cmdRetreat ∨ i = .cmdStop := by
  cases i <;> simp [encode] at h ⊢

/-- Settles O54: what is served on the `STIM` port is the reset line, a word that encodes a stimulus, or nothing. -/
theorem blockTakesOnlyStimuliAndReset : Obligations.BlockTakesOnlyStimuliAndReset := by
  intro s t hd h
  have hevt : s.drive ≠ .evt2 := by simp [hd]
  rcases step_next_cases h with ⟨i, hserves, rfl⟩ | ⟨⟨-, rest, hin⟩ | ⟨hd', -⟩, rfl⟩
  · right
    have hexec : exec i { s with input := s.input.tail } = .next (s.takeItem.commit (blockStep i s.block)) := by
      rw [exec_eq, State.takeItem_of_stim hd]
    cases hserves with
    | stimIdle _ hin => exact ⟨.nop, .inl rfl, fun _ => rfl, fun w rest hword => by simp [hin] at hword, hexec⟩
    | @stimWord i w rest _ hin he =>
      refine ⟨i, ?_, fun hnil => by simp [hin] at hnil, fun v rest' hword => ?_, hexec⟩
      · exact stimulus_of_encode he
      · obtain ⟨rfl, -⟩ : w = v ∧ rest = rest' := by simpa [hin] using hword
        exact he
    | evtIdle hd' => exact absurd hd' hevt
    | evtWord hd' => exact absurd hd' hevt
  · exact .inl ⟨rest, hin, by rw [State.takeItem_of_stim_cons hd hin]⟩
  · exact absurd hd' hevt

/-- A step that runs an instruction keeps a faulted block as it is, and emits nothing (R18). -/
theorem step_next_of_fault {s t : State} (h : step s = .next t) (hr : ¬ Claims.servesReset s)
    (hf : s.block.fault ≠ none) : t.block = s.block ∧ t.label = none := by
  obtain ⟨i, -, rfl⟩ := step_next_of_not_reset h hr
  obtain ⟨r, hr⟩ := Option.ne_none_iff_exists'.mp hf
  simp [blockStep_of_fault hr]

theorem mem_take_succ_of_mem_take_tail {α : Type} {x : α} {xs : List α} {n : Nat} (h : x ∈ xs.tail.take n) :
    x ∈ xs.take (n + 1) := by
  cases xs with
  | nil => simp at h
  | cons y ys => exact List.mem_cons_of_mem y h

/-- Settles O9, by induction on the number of steps: a step takes one item off the driven port and keeps the drive, so the
items of the remaining steps are among those that hold no reset. -/
theorem faultLastsUntilReset : Obligations.FaultLastsUntilReset := by
  intro n
  induction n with
  | zero =>
    intro s t _ _ _ hrun
    rw [core_run_zero] at hrun
    cases hrun
    exact ⟨rfl, fun h => absurd rfl h⟩
  | succ n ih =>
    intro s t hf hstim hevt hrun
    obtain ⟨u, hstep, hrun⟩ := core_run_succ hrun
    have hr : ¬ Claims.servesReset s := by
      rintro (⟨hd, rest, hin⟩ | ⟨hd, rest, hev⟩)
      · exact hstim hd .reset (by simp [hin]) rfl
      · exact hevt hd .reset (by simp [hev]) rfl
    obtain ⟨hblock, hlabel⟩ := step_next_of_fault hstep hr hf
    obtain ⟨hdrive, hinput, hevents⟩ := stepServesExactlyOneInput s u hstep
    have hrest : t.block = u.block ∧ (n ≠ 0 → t.label = none) := by
      refine ih u t (hblock ▸ hf) (fun hd x hx => ?_) (fun hd x hx => ?_) hrun
      · rw [hdrive] at hd
        rw [(hinput hd).1] at hx
        exact hstim hd x (mem_take_succ_of_mem_take_tail hx)
      · rw [hdrive] at hd
        rw [(hevents hd).2] at hx
        exact hevt hd x (mem_take_succ_of_mem_take_tail hx)
    refine ⟨hrest.1.trans hblock, fun _ => ?_⟩
    cases n with
    | zero =>
      rw [core_run_zero] at hrun
      cases hrun
      exact hlabel
    | succ n => exact hrest.2 (Nat.succ_ne_zero n)

end Sys2Proof.Machine
end

section
/-! PROOFS. What an instruction can do to a ready block (10_state.md section 5, 42_state_machine.md sections 2 to 5). An
event has one of four effects, `EventEffect`; a rule is an event or nothing, and then a count where it is HWTICK's. -/

namespace Sys2Proof.Machine

theorem Block.ReadyIn.state_eq {b : Block} {m : MotorState} (h : b.ReadyIn m) : b.state = codeOf m := h.2.1

theorem Block.ReadyIn.div_le {b : Block} {m : MotorState} (h : b.ReadyIn m) : b.div.toNat ≤ 25 := h.2.2

theorem Block.Ready.div_le {b : Block} (h : b.Ready) : b.div.toNat ≤ 25 := h.2.2

theorem codeOf_inj {m n : MotorState} : codeOf m = codeOf n ↔ m = n := ⟨codeOf_injective, congrArg codeOf⟩

/-- The index `n` places further on in the cycle. -/
def idxPlus (i : StepIndex) (n : Nat) : StepIndex := BitVec.ofNat 5 (i.toNat + n)

theorem idxPlus_toNat (i : StepIndex) (n : Nat) : (idxPlus i n).toNat = (i.toNat + n) % 32 := by
  rw [idxPlus, BitVec.toNat_ofNat]

@[simp] theorem idxPlus_zero (i : StepIndex) : idxPlus i 0 = i := by
  rw [idxPlus, Nat.add_zero, BitVec.ofNat_toNat, BitVec.setWidth_eq]

theorem idxPlus_idxPlus (i : StepIndex) (n k : Nat) : idxPlus (idxPlus i n) k = idxPlus i (n + k) := by
  apply BitVec.eq_of_toNat_eq
  simp only [idxPlus_toNat]
  omega

theorem idxForward_eq_idxPlus (i : StepIndex) : idxForward i = idxPlus i 1 := by
  rw [← BitVec.toNat_inj, idxForward_toNat, idxPlus_toNat]

theorem idxBackward_eq_idxPlus (i : StepIndex) : idxBackward i = idxPlus i 31 := by
  rw [← BitVec.toNat_inj, idxBackward_toNat, idxPlus_toNat]

/-- The two ways of motion: the moving and the braking state, and the places the index goes on in one step. -/
inductive Way : MotorState → MotorState → Nat → Prop where
  | forward : Way .forward .brakingForward 1
  | reverse : Way .reverse .brakingReverse 31

/-- The motion state a command's event can lead to (R71 to R90): the same one, either motion from rest, or the braking
state of the motion. -/
inductive Turns : MotorState → MotorState → Prop where
  | stay (m : MotorState) : Turns m m
  | startForward : Turns .stopped .forward
  | startReverse : Turns .stopped .reverse
  | brakeForward : Turns .forward .brakingForward
  | brakeReverse : Turns .reverse .brakingReverse

theorem fsm_command_turns {e : Event} (he : e ≠ .tick) (m : MotorState) (i : StepIndex) : Turns m (fsm m i e).state := by
  cases e
  case tick => exact absurd rfl he
  all_goals cases m <;> constructor

/-- What an event can make of a block that is ready in `m`, with the output it emits. -/
inductive EventEffect (m : MotorState) (b : Block) : Block × Option Output → Prop where
  | turn {m' : MotorState} (h : Turns m m') : EventEffect m b ({ b with state := codeOf m' }, none)
  | forward (hm : m = .forward ∨ m = .brakingForward ∧ b.idx.toNat % 8 ≠ 0) :
    EventEffect m b
      (({ b with idx := idxForward b.idx } : Block).emit (movingWaveform b.idx), some (movingWaveform b.idx))
  | backward (hm : m = .reverse ∨ m = .brakingReverse ∧ b.idx.toNat % 8 ≠ 0) :
    EventEffect m b
      (({ b with idx := idxBackward b.idx } : Block).emit (movingWaveform b.idx), some (movingWaveform b.idx))
  | park (hm : m = .brakingForward ∨ m = .brakingReverse) (hb : b.idx.toNat % 8 = 0) :
    EventEffect m b
      (({ b with state := codeOf .stopped } : Block).emit (parkingWaveform b.idx), some (parkingWaveform b.idx))

/-- Doing nothing is the effect of a command that keeps the motion state. -/
theorem EventEffect.none {m : MotorState} {b : Block} (h : b.ReadyIn m) : EventEffect m b (b, none) := by
  have hstay : EventEffect m b ({ b with state := codeOf m }, Option.none) := .turn (.stay m)
  rwa [h.set_same_state] at hstay

theorem applyEvent_tick_effect {m : MotorState} {b : Block} (h : b.ReadyIn m) :
    EventEffect m b (applyEvent .tick m b) := by
  cases m with
  | stopped => exact applyEvent_tick_at_rest h ▸ .none h
  | forward => exact applyEvent_tick_forward h (.inl rfl) ▸ .forward (.inl rfl)
  | reverse => exact applyEvent_tick_backward h (.inl rfl) ▸ .backward (.inl rfl)
  | brakingForward =>
    by_cases hb : b.idx.toNat % 8 = 0
    · exact applyEvent_tick_parks (.inl rfl) hb ▸ .park (.inl rfl) hb
    · exact applyEvent_tick_forward h (.inr ⟨rfl, hb⟩) ▸ .forward (.inr ⟨rfl, hb⟩)
  | brakingReverse =>
    by_cases hb : b.idx.toNat % 8 = 0
    · exact applyEvent_tick_parks (.inr rfl) hb ▸ .park (.inr rfl) hb
    · exact applyEvent_tick_backward h (.inr ⟨rfl, hb⟩) ▸ .backward (.inr ⟨rfl, hb⟩)

theorem applyEvent_effect {m : MotorState} {b : Block} (h : b.ReadyIn m) (e : Event) :
    EventEffect m b (applyEvent e m b) := by
  by_cases he : e = .tick
  · exact he ▸ applyEvent_tick_effect h
  · rw [applyEvent_command he]
    exact .turn (fsm_command_turns he m b.idx)

/-- A rule has the effect of an event, and after it the value of `DIV` that the divider leaves (R28). -/
theorem ruleOf_effect {m : MotorState} {b : Block} (h : b.ReadyIn m) (i : Instr) :
    ∃ r, EventEffect m b r ∧
      ruleOf i m b = (r.1.setDiv (if i = .hwtick then divNext b.div else b.div), r.2) := by
  have hevent : ∀ e : Event, ∃ r, EventEffect m b r ∧ applyEvent e m b = (r.1.setDiv b.div, r.2) := by
    refine fun e => ⟨applyEvent e m b, applyEvent_effect h e, ?_⟩
    conv_rhs => rw [← applyEvent_div e m b]
    rfl
  cases i with
  | nop => exact ⟨(b, none), .none h, rfl⟩
  | hwtick =>
    by_cases hd : b.div = 0#5
    · exact ⟨_, applyEvent_effect h .tick, by rw [ruleOf, hwtickRule_of_div_eq_zero m hd, hd]; rfl⟩
    · exact ⟨(b, none), .none h, by rw [ruleOf, hwtickRule_of_div_ne_zero m hd]; rfl⟩
  | cmdAdvance | evAdvance => exact hevent .advance
  | cmdRetreat | evRetreat => exact hevent .retreat
  | cmdStop | evStop => exact hevent .stop
  | evTick => exact hevent .tick

/-- A legal `DIV` counts on to a legal one. -/
theorem counted_div_le {d : DivCount} (i : Instr) (h : d.toNat ≤ 25) :
    (if i = .hwtick then divNext d else d).toNat ≤ 25 := by
  split
  · rw [divNext_toNat]
    omega
  · exact h

/-- A predicate is kept by every instruction if raising the fault from an illegal state, the effects of an event on a
ready block, and a legal count of `DIV` keep it. -/
theorem blockStep_keeps {P : Block → Prop} {i : Instr} {b : Block}
    (hfault : P b → b.fault = none → (5 ≤ b.state.toNat ∨ 26 ≤ b.div.toNat) → P (b.raiseFault .illegalState))
    (hevent : ∀ {m r}, b.ReadyIn m → P b → EventEffect m b r → P r.1)
    (hdiv : ∀ {c : Block} {d : DivCount}, P c → d.toNat ≤ 25 → P (c.setDiv d)) (h : P b) : P (blockStep i b).1 := by
  rcases blockStep_cases i b with ⟨-, hb⟩ | ⟨hf, hl, hb⟩ | ⟨m, hm, hb⟩ <;> rw [hb]
  · exact h
  · exact hfault h hf hl
  · obtain ⟨r, hr, hrule⟩ := ruleOf_effect hm i
    rw [hrule]
    exact hdiv (hevent hm h hr) (counted_div_le i hm.div_le)

/-- A predicate of the block that reset establishes and every instruction keeps is kept by every step. -/
theorem step_keeps {P : Block → Prop} (hreset : P Block.reset) (hinstr : ∀ i b, P b → P (blockStep i b).1)
    {s t : State} (hs : P s.block) (h : step s = .next t) : P t.block := by
  rcases step_next_cases h with ⟨i, -, rfl⟩ | ⟨-, rfl⟩
  · exact hinstr i s.block hs
  · exact hreset

/-- What every step keeps holds after every number of steps. -/
theorem core_run_keeps {P : State → Prop} (hstep : ∀ s t, P s → step s = .next t → P t) (n : Nat) {s t : State}
    (hs : P s) (h : Sys2Proof.core.run n s = .next t) : P t := by
  induction n generalizing s with
  | zero =>
    rw [core_run_zero] at h
    cases h
    exact hs
  | succ n ih =>
    obtain ⟨u, hsu, hut⟩ := core_run_succ h
    exact ih (hstep s u hs hsu) hut

end Sys2Proof.Machine
end

section
/-! PROOFS. The parking waveform and the amplitudes (41_waveform.md sections 1 and 2). -/

namespace Sys2Proof.Machine

theorem ppolLut_values : ppolLut.toList.map BitVec.toNat = [1, 4, 2, 8] := rfl

theorem some_readPpolLut_toNat (q : BitVec 2) :
    some (readPpolLut q).toNat = ([1, 4, 2, 8] : List Nat)[q.toNat]? := by
  rw [readPpolLut, some_toNat_getElem, ppolLut_values]

/-- Settles O15: the polarity is read at `quad i`, the index divided by 8. -/
theorem parkingWaveformReadsTheTable : Obligations.ParkingWaveformReadsTheTable := fun i =>
  ⟨rfl, quad_toNat i ▸ some_readPpolLut_toNat (quad i)⟩

/-- No entry of one polarity table is an entry of the other. -/
theorem readPpolLut_ne_readMpolLut : ∀ q r : BitVec 2, readPpolLut q ≠ readMpolLut r := by decide

theorem readAmpLut_le : ∀ j : BitVec 4, (readAmpLut j).toNat ≤ 32 := by decide

theorem movingWaveform_amp_le (i : StepIndex) : (movingWaveform i).amp.toNat ≤ 32 := readAmpLut_le (sub i)

theorem parkingWaveform_amp_le (i : StepIndex) : (parkingWaveform i).amp.toNat ≤ 32 := by
  have hamp : (16#6 : Amplitude).toNat ≤ 32 := by decide
  exact hamp

/-- Settles O16: the polarities differ entry by entry of their tables, and the amplitudes are entries of their table or the
parking amplitude. -/
theorem parkingNeverLooksLikeMoving : Obligations.ParkingNeverLooksLikeMoving := fun i j =>
  ⟨readPpolLut_ne_readMpolLut (quad i) (quad j), movingWaveform_amp_le i, parkingWaveform_amp_le i⟩

end Sys2Proof.Machine
end

section
/-! PROOFS. The invariants of the block (10_state.md section 4). Each is kept by the effects of an event, and with that by
every instruction, every step and every run. -/

namespace Sys2Proof.Machine

theorem Block.Ready.not_illegal {b : Block} (h : b.Ready) : ¬ (5 ≤ b.state.toNat ∨ 26 ≤ b.div.toNat) := by
  obtain ⟨-, hs, hd⟩ := h
  omega

theorem EventEffect.ready {m : MotorState} {b : Block} {r : Block × Option Output} (h : b.Ready)
    (hr : EventEffect m b r) : r.1.Ready := by
  obtain ⟨hf, hs, hd⟩ := h
  cases hr with
  | turn => exact ⟨hf, codeOf_toNat_le _, hd⟩
  | forward | backward => exact ⟨hf, hs, hd⟩
  | park => exact ⟨hf, codeOf_toNat_le _, hd⟩

theorem blockStep_ready {b : Block} (i : Instr) (h : b.Ready) : (blockStep i b).1.Ready :=
  blockStep_keeps (P := Block.Ready) (fun h _ hl => absurd hl h.not_illegal) (fun _ h hr => hr.ready h)
    (fun h hd => ⟨h.1, h.2.1, hd⟩) h

theorem reset_ready : Block.reset.Ready := ⟨rfl, by decide, by decide⟩

/-- Settles O33: every instruction keeps a ready block ready, and reset makes one. -/
theorem stepKeepsReady : Obligations.StepKeepsReady :=
  fun _ _ => step_keeps reset_ready fun i _ => blockStep_ready i

theorem EventEffect.inRange {m : MotorState} {b : Block} {r : Block × Option Output} (h : b.InRange)
    (hr : EventEffect m b r) : r.1.InRange := by
  obtain ⟨-, hd, hs, ha⟩ := h
  have hidx (i : StepIndex) : i.toNat ≤ 31 := Nat.le_of_lt_succ i.isLt
  cases hr with
  | turn => exact ⟨hidx _, hd, codeOf_toNat_le _, ha⟩
  | forward | backward => exact ⟨hidx _, hd, hs, movingWaveform_amp_le _⟩
  | park => exact ⟨hidx _, hd, codeOf_toNat_le _, parkingWaveform_amp_le b.idx⟩

theorem blockStep_inRange {b : Block} (i : Instr) (h : b.InRange) : (blockStep i b).1.InRange :=
  blockStep_keeps (P := Block.InRange) (fun h _ _ => h) (fun _ h hr => hr.inRange h)
    (fun h hd => ⟨h.1, hd, h.2.2⟩) h

theorem reset_inRange : Block.reset.InRange := ⟨by decide, by decide, by decide, by decide⟩

/-- Settles O32: every instruction keeps the ranges, from a faulted block as well, and reset has them. -/
theorem stepKeepsRanges : Obligations.StepKeepsRanges :=
  fun _ _ => step_keeps reset_inRange fun i _ => blockStep_inRange i

/-- What `ParksOnBoundary` and `OutputTracks` ask of a block in a given motion state. -/
def Block.TracksIn (b : Block) : MotorState → Prop
  | .stopped => b.idx.toNat % 8 = 0 ∧ b.Drives (parkingWaveform b.idx)
  | .forward | .brakingForward =>
    b.Drives (movingWaveform (b.idx - 1#5)) ∨ (b.idx.toNat % 8 = 0 ∧ b.Drives (parkingWaveform b.idx))
  | .reverse | .brakingReverse =>
    b.Drives (movingWaveform (b.idx + 1#5)) ∨ (b.idx.toNat % 8 = 0 ∧ b.Drives (parkingWaveform b.idx))

theorem tracksIn_iff {b : Block} {m : MotorState} (h : b.state = codeOf m) :
    b.TracksIn m ↔ b.ParksOnBoundary ∧ b.OutputTracks := by
  cases m <;> simp [Block.TracksIn, Block.ParksOnBoundary, Block.OutputTracks, h, codeOf_inj]

/-- A turn keeps the output in step with the position: motion starts from the boundary the block rests on, and braking
asks what the motion asked. -/
theorem TracksIn.turn {m m' : MotorState} {b : Block} (h : b.TracksIn m) (ht : Turns m m') :
    ({ b with state := codeOf m' } : Block).TracksIn m' := by
  cases ht with
  | stay => cases m <;> exact h
  | startForward | startReverse => exact .inr h
  | brakeForward | brakeReverse => exact h

theorem drives_emit (b : Block) (o : Output) : (b.emit o).Drives o := ⟨rfl, rfl⟩

theorem idxForward_sub_one (i : StepIndex) : idxForward i - 1#5 = i := by
  rw [idxForward_eq, BitVec.add_sub_cancel]

theorem idxBackward_add_one (i : StepIndex) : idxBackward i + 1#5 = i := by
  rw [idxBackward_eq, BitVec.sub_add_cancel]

/-- An effect leaves a motion state in which the output is in step with the position. -/
theorem EventEffect.tracksIn {m : MotorState} {b : Block} {r : Block × Option Output} (hs : b.state = codeOf m)
    (h : b.TracksIn m) (hr : EventEffect m b r) : ∃ m', r.1.state = codeOf m' ∧ r.1.TracksIn m' := by
  cases hr with
  | turn ht => exact ⟨_, rfl, TracksIn.turn h ht⟩
  | forward hm =>
    refine ⟨m, hs, ?_⟩
    rcases hm with rfl | ⟨rfl, -⟩ <;>
      exact .inl (by rw [Block.emit_idx, idxForward_sub_one]; exact drives_emit _ _)
  | backward hm =>
    refine ⟨m, hs, ?_⟩
    rcases hm with rfl | ⟨rfl, -⟩ <;>
      exact .inl (by rw [Block.emit_idx, idxBackward_add_one]; exact drives_emit _ _)
  | park _ hb => exact ⟨.stopped, rfl, hb, drives_emit _ _⟩

theorem EventEffect.sound {m : MotorState} {b : Block} {r : Block × Option Output} (hm : b.ReadyIn m) (h : b.Sound)
    (hr : EventEffect m b r) : r.1.Sound := by
  obtain ⟨hready, hrange, htracks⟩ := h
  obtain ⟨-, hs, -⟩ := hm
  obtain ⟨m', hs', h'⟩ := hr.tracksIn hs ((tracksIn_iff hs).mpr htracks)
  exact ⟨hr.ready hready, hr.inRange hrange, (tracksIn_iff hs').mp h'⟩

theorem Block.Sound.setDiv {b : Block} {d : DivCount} (h : b.Sound) (hd : d.toNat ≤ 25) : (b.setDiv d).Sound := by
  obtain ⟨⟨hf, hs, -⟩, ⟨hi, -, hs', ha⟩, htracks⟩ := h
  exact ⟨⟨hf, hs, hd⟩, ⟨hi, hd, hs', ha⟩, htracks⟩

theorem blockStep_sound {b : Block} (i : Instr) (h : b.Sound) : (blockStep i b).1.Sound :=
  blockStep_keeps (P := Block.Sound) (fun h _ hl => absurd hl h.1.not_illegal) (fun hm h hr => hr.sound hm h)
    (fun h hd => h.setDiv hd) h

theorem reset_sound : Block.reset.Sound :=
  ⟨reset_ready, reset_inRange, (tracksIn_iff (m := .stopped) rfl).mp ⟨by decide, by decide, by decide⟩⟩

/-- Settles O35. -/
theorem resetIsSound : Obligations.ResetIsSound := reset_sound

/-- Settles O34: every instruction keeps the invariant, and reset has it. -/
theorem stepKeepsSound : Obligations.StepKeepsSound :=
  fun _ _ => step_keeps reset_sound fun i _ => blockStep_sound i

/-- Settles O36: the invariant holds at reset, whatever waits on the ports, and every step keeps it. -/
theorem everyReachableStateIsSound : Obligations.EveryReachableStateIsSound := fun n _ _ _ _ =>
  core_run_keeps (P := fun s => s.block.Sound) stepKeepsSound n reset_sound

/-- The motion state and the index after an instruction are those before, or those of an event's effect on a ready
block. -/
theorem blockStep_motion (i : Instr) (b : Block) :
    ((blockStep i b).1.state = b.state ∧ (blockStep i b).1.idx = b.idx) ∨
      ∃ m r, b.ReadyIn m ∧ EventEffect m b r ∧
        (blockStep i b).1.state = r.1.state ∧ (blockStep i b).1.idx = r.1.idx := by
  rcases blockStep_cases i b with ⟨-, hb⟩ | ⟨-, -, hb⟩ | ⟨m, hm, hb⟩ <;> rw [hb]
  · exact .inl ⟨rfl, rfl⟩
  · exact .inl ⟨rfl, rfl⟩
  · obtain ⟨r, hr, hrule⟩ := ruleOf_effect hm i
    exact .inr ⟨m, r, hm, hr, by rw [hrule, Block.setDiv_state], by rw [hrule, Block.setDiv_idx]⟩

/-- Out of rest, an effect only starts motion. -/
theorem EventEffect.of_leaves_rest {b : Block} {r : Block × Option Output} (hr : EventEffect .stopped b r)
    (hne : r.1.state ≠ codeOf .stopped) :
    r.1.idx = b.idx ∧ (r.1.state = codeOf .forward ∨ r.1.state = codeOf .reverse) := by
  cases hr with
  | turn ht =>
    cases ht with
    | stay => exact absurd rfl hne
    | startForward => exact ⟨rfl, .inl rfl⟩
    | startReverse => exact ⟨rfl, .inr rfl⟩
  | forward hm => simp at hm
  | backward hm => simp at hm
  | park hm => simp at hm

/-- Settles O37: reset leaves the block at rest, so the step has the effect of an event on a block at rest. -/
theorem motionStartsOnABoundary : Obligations.MotionStartsOnABoundary := by
  intro s t hparks h hs hne
  rcases step_next_cases h with ⟨i, -, rfl⟩ | ⟨-, rfl⟩
  · rw [State.commit_block] at hne ⊢
    rcases blockStep_motion i s.block with ⟨hstate, -⟩ | ⟨m, r, hm, hr, hstate, hidx⟩
    · exact absurd (hstate.trans hs) hne
    · obtain rfl : m = .stopped := codeOf_injective (hm.state_eq.symm.trans hs)
      rw [hstate] at hne ⊢
      obtain ⟨hsame, hmoving⟩ := hr.of_leaves_rest hne
      rw [hidx, hsame]
      exact ⟨rfl, hparks hs, hmoving⟩
  · exact absurd rfl hne

/-- An effect keeps the direction of motion, or parks, and the index goes its way. -/
theorem EventEffect.of_way {moving braking m : MotorState} {k : Nat} (hw : Way moving braking k) {b : Block}
    {r : Block × Option Output} (hr : EventEffect m b r) (hs : b.state = codeOf m) (hm : m = moving ∨ m = braking) :
    (r.1.state = codeOf moving ∨ r.1.state = codeOf braking ∨ r.1.state = codeOf .stopped) ∧
      (r.1.idx = b.idx ∨ r.1.idx = idxPlus b.idx k) := by
  have hkeeps : b.state = codeOf moving ∨ b.state = codeOf braking ∨ b.state = codeOf .stopped := by
    rcases hm with rfl | rfl <;> simp [hs]
  cases hr with
  | turn ht =>
    refine ⟨?_, .inl rfl⟩
    cases hw <;> rcases hm with rfl | rfl <;> cases ht <;> simp
  | forward h =>
    cases hw with
    | forward => exact ⟨hkeeps, .inr (idxForward_eq_idxPlus _)⟩
    | reverse => rcases hm with rfl | rfl <;> simp at h
  | backward h =>
    cases hw with
    | forward => rcases hm with rfl | rfl <;> simp at h
    | reverse => exact ⟨hkeeps, .inr (idxBackward_eq_idxPlus _)⟩
  | park _ _ => exact ⟨.inr (.inr rfl), .inl rfl⟩

theorem blockStep_of_way {moving braking : MotorState} {k : Nat} (hw : Way moving braking k) (i : Instr) {b : Block}
    (hs : b.state = codeOf moving ∨ b.state = codeOf braking) :
    ((blockStep i b).1.state = codeOf moving ∨ (blockStep i b).1.state = codeOf braking ∨
        (blockStep i b).1.state = codeOf .stopped) ∧
      ((blockStep i b).1.idx = b.idx ∨ (blockStep i b).1.idx.toNat = (b.idx.toNat + k) % 32) := by
  rcases blockStep_motion i b with ⟨hstate, hidx⟩ | ⟨m, r, ⟨-, hm, -⟩, hr, hstate, hidx⟩
  · rw [hstate, ← or_assoc]
    exact ⟨.inl hs, .inl hidx⟩
  · rw [hm, codeOf_inj, codeOf_inj] at hs
    obtain ⟨hstate', hidx'⟩ := hr.of_way hw hm hs
    rw [hstate, hidx, ← idxPlus_toNat, BitVec.toNat_inj]
    exact ⟨hstate', hidx'⟩

/-- Settles O39, for each way of motion. -/
theorem directionChangesOnlyThroughStopped : Obligations.DirectionChangesOnlyThroughStopped := by
  intro i s t h
  rw [exec_eq] at h
  cases h
  exact ⟨blockStep_of_way .forward i, blockStep_of_way .reverse i⟩

end Sys2Proof.Machine
end

section
/-! PROOFS. What each instruction leaves unchanged, and which register has which owner (10_state.md section 5, 40_divider.md
section 2, 42_state_machine.md section 5). -/

namespace Sys2Proof.Machine

/-- The command stimuli and their events. -/
def IsMotionCommand (i : Instr) : Prop :=
  i = .cmdAdvance ∨ i = .cmdRetreat ∨ i = .cmdStop ∨ i = .evAdvance ∨ i = .evRetreat ∨ i = .evStop

/-- A command and its event have the rule of an event other than TICK (R93 to R99). -/
theorem IsMotionCommand.ruleOf_eq {i : Instr} (h : IsMotionCommand i) : ∃ e, e ≠ .tick ∧ ruleOf i = applyEvent e := by
  rcases h with rfl | rfl | rfl | rfl | rfl | rfl
  · exact ⟨.advance, by decide, rfl⟩
  · exact ⟨.retreat, by decide, rfl⟩
  · exact ⟨.stop, by decide, rfl⟩
  · exact ⟨.advance, by decide, rfl⟩
  · exact ⟨.retreat, by decide, rfl⟩
  · exact ⟨.stop, by decide, rfl⟩

/-- From every block, a command sets `STATE`, or `FAULT`, and nothing else. -/
theorem blockStep_of_command {i : Instr} (hi : IsMotionCommand i) (b : Block) :
    ∃ c f, blockStep i b = ({ b with state := c, fault := f }, none) := by
  rcases blockStep_cases i b with ⟨-, hb⟩ | ⟨-, -, hb⟩ | ⟨m, -, hb⟩ <;> rw [hb]
  · exact ⟨b.state, b.fault, rfl⟩
  · exact ⟨b.state, some .illegalState, rfl⟩
  · obtain ⟨e, he, hrule⟩ := hi.ruleOf_eq
    rw [hrule, applyEvent_command he]
    exact ⟨_, b.fault, rfl⟩

/-- From every block, NOP and a HWTICK with `DIV` not 0 set `DIV`, or `FAULT`, and nothing else (R60, R61). -/
theorem blockStep_of_silent {i : Instr} {b : Block} (hi : i = .nop ∨ i = .hwtick ∧ b.div ≠ 0#5) :
    ∃ d f, blockStep i b = ({ b with div := d, fault := f }, none) := by
  rcases blockStep_cases i b with ⟨-, hb⟩ | ⟨-, -, hb⟩ | ⟨m, -, hb⟩ <;> rw [hb]
  · exact ⟨b.div, b.fault, rfl⟩
  · exact ⟨b.div, some .illegalState, rfl⟩
  · rcases hi with rfl | ⟨rfl, hd⟩
    · exact ⟨b.div, b.fault, rfl⟩
    · rw [ruleOf, hwtickRule_of_div_ne_zero m hd]
      exact ⟨divNext b.div, b.fault, rfl⟩

/-- An instruction that delivers no TICK is silent or a command. -/
theorem silent_or_command {i : Instr} {b : Block} (h : ¬ DeliversTick i b) :
    (i = .nop ∨ i = .hwtick ∧ b.div ≠ 0#5) ∨ IsMotionCommand i := by
  unfold DeliversTick at h
  unfold IsMotionCommand
  cases i <;> simp_all

/-- Without a TICK, the index is kept and nothing is emitted. -/
theorem blockStep_of_not_deliversTick {i : Instr} {b : Block} (h : ¬ DeliversTick i b) :
    (blockStep i b).1.idx = b.idx ∧ (blockStep i b).2 = none := by
  rcases silent_or_command h with hi | hi
  · obtain ⟨d, f, hb⟩ := blockStep_of_silent hi
    simp [hb]
  · obtain ⟨c, f, hb⟩ := blockStep_of_command hi b
    simp [hb]

theorem EventEffect.fault_eq {m : MotorState} {b : Block} {r : Block × Option Output} (hr : EventEffect m b r) :
    r.1.fault = b.fault := by
  cases hr <;> rfl

/-- From a legal state no instruction changes `FAULT`. -/
theorem blockStep_fault_of_legal (i : Instr) {b : Block} (hs : b.state.toNat ≤ 4) (hd : b.div.toNat ≤ 25) :
    (blockStep i b).1.fault = b.fault := by
  rcases blockStep_cases i b with ⟨-, hb⟩ | ⟨-, hl, -⟩ | ⟨m, hm, hb⟩
  · rw [hb]
  · omega
  · obtain ⟨r, hr, hrule⟩ := ruleOf_effect hm i
    rw [hb, hrule, Block.setDiv_fault, hr.fault_eq]

/-- A ready block's `DIV` counts on at HWTICK and is kept by every other instruction (R60). -/
theorem blockStep_div_of_ready (i : Instr) {b : Block} (h : b.Ready) :
    (blockStep i b).1.div = if i = .hwtick then divNext b.div else b.div := by
  obtain ⟨m, hm⟩ := h.readyIn
  obtain ⟨r, -, hrule⟩ := ruleOf_effect hm i
  rw [blockStep_of_readyIn hm, hrule, Block.setDiv_div]

theorem blockStep_div_of_ne_hwtick {i : Instr} (hi : i ≠ .hwtick) (b : Block) : (blockStep i b).1.div = b.div := by
  rcases blockStep_cases i b with ⟨-, hb⟩ | ⟨-, -, hb⟩ | ⟨m, hm, -⟩
  · rw [hb]
  · rw [hb, Block.raiseFault_div]
  · rw [blockStep_div_of_ready i hm.ready, if_neg hi]

/-- Settles O25: a command sets `STATE`, or `FAULT` from an illegal state. -/
theorem commandFrame : Obligations.CommandFrame := by
  intro i s t hi h
  have hfault := blockStep_fault_of_legal i (b := s.block)
  obtain ⟨c, f, hb⟩ := blockStep_of_command hi s.block
  rw [exec_eq] at h
  cases h
  rw [hb] at hfault ⊢
  exact ⟨rfl, rfl, rfl, rfl, rfl, rfl, rfl, rfl, hfault⟩

/-- Settles O26: `FAULT` and `DIV` by the lemmas on every instruction, the rest as NOP and a silent HWTICK set nothing else. -/
theorem dividerAndTickFrame : Obligations.DividerAndTickFrame := by
  intro i s t _ h
  rw [exec_eq] at h
  cases h
  refine ⟨rfl, rfl, rfl, blockStep_fault_of_legal i, fun hi => blockStep_div_of_ne_hwtick hi s.block, fun hi => ?_⟩
  obtain ⟨d, f, hb⟩ := blockStep_of_silent hi
  rw [hb]
  exact ⟨rfl, rfl, rfl, rfl, rfl⟩

/-- A step's latch and label: an emitted pair stands in the latch, and without an emission the latch of `b` does (R66). -/
def Latches (b : Block) (r : Block × Option Output) : Prop :=
  (∀ o, r.2 = some o → r.1.Drives o) ∧ (r.2 = none → r.1.outAmp = b.outAmp ∧ r.1.outPol = b.outPol)

theorem latches_none {b c : Block} (hamp : c.outAmp = b.outAmp) (hpol : c.outPol = b.outPol) : Latches b (c, none) :=
  ⟨fun _ h => by simp at h, fun _ => ⟨hamp, hpol⟩⟩

theorem latches_some {b c : Block} {o : Output} (h : c.Drives o) : Latches b (c, some o) :=
  ⟨fun o' ho => by cases ho; exact h, fun ho => by simp at ho⟩

theorem EventEffect.latches {m : MotorState} {b : Block} {r : Block × Option Output} (hr : EventEffect m b r) :
    Latches b r := by
  cases hr with
  | turn => exact latches_none rfl rfl
  | forward | backward | park => exact latches_some (drives_emit _ _)

theorem blockStep_latches (i : Instr) (b : Block) : Latches b (blockStep i b) := by
  rcases blockStep_cases i b with ⟨-, hb⟩ | ⟨-, -, hb⟩ | ⟨m, hm, hb⟩ <;> rw [hb]
  · exact latches_none rfl rfl
  · exact latches_none rfl rfl
  · obtain ⟨r, hr, hrule⟩ := ruleOf_effect hm i
    rw [hrule]
    exact hr.latches

/-- Settles O30: every instruction's step latches what it emits, and reset latches `(16, 1)`. -/
theorem latchHoldsTheLastEmission : Obligations.LatchHoldsTheLastEmission := by
  intro s t h
  rcases step_next_cases h with ⟨i, -, rfl⟩ | ⟨-, rfl⟩
  · exact blockStep_latches i s.block
  · have hreset : Latches s.block (Block.reset, some { amp := 16#6, pol := 1#4 }) := latches_some ⟨rfl, rfl⟩
    exact hreset

theorem Serves.hwtick_word {s : State} (h : Serves s .hwtick) :
    s.drive = .stim3 ∧ ∃ rest, s.input = .word 0b001#3 :: rest := by
  cases h with
  | @stimWord _ w rest hd hin he =>
    cases he
    exact ⟨hd, rest, hin⟩
  | evtWord _ _ he => cases he

/-- Settles O27: each clause names the one kind of instruction that is not ruled out, and what a step serves says which word
that is. -/
theorem registersHaveOneOwner : Obligations.RegistersHaveOneOwner := by
  intro s t hr h
  obtain ⟨i, hserves, rfl⟩ := step_next_of_not_reset h hr
  simp only [State.commit_block, State.commit_label]
  refine ⟨fun hdiv => ?div, fun hout hlabel => ?latch, fun hmotion => ?motion⟩
  case div =>
    have hi : i = .hwtick := by
      by_contra hi
      exact hdiv (blockStep_div_of_ne_hwtick hi s.block)
    exact (hi ▸ hserves).hwtick_word
  case latch =>
    obtain ⟨hamp, hpol⟩ := (blockStep_latches i s.block).2 hlabel
    exact hout.elim (absurd hamp) (absurd hpol)
  case motion =>
    have hi : ¬ (i = .nop ∨ i = .hwtick ∧ s.block.div ≠ 0#5) := by
      intro hi
      obtain ⟨d, f, hb⟩ := blockStep_of_silent hi
      simp [hb] at hmotion
    cases hserves with
    | stimIdle => exact absurd (.inl rfl) hi
    | evtIdle => exact absurd (.inl rfl) hi
    | @stimWord i w rest hd hin he =>
      refine ⟨fun _ => ⟨w, rest, hin, ?_, ?_⟩, fun hd' => by simp [hd] at hd'⟩
      · rintro rfl
        exact hi (.inl (encode_injective (j := .nop) he))
      · rintro rfl
        by_contra hdiv
        exact hi (.inr ⟨encode_injective (j := .hwtick) he, hdiv⟩)
    | @evtWord i e rest hd hev he => exact ⟨fun hd' => by simp [hd] at hd', fun _ => ⟨e, rest, hev⟩⟩

/-- Settles O55: an emission or a new index takes a TICK, and on the `STIM` port only HWTICK at `DIV = 0` delivers one. -/
theorem tickComesOnlyFromTheDivider : Obligations.TickComesOnlyFromTheDivider := by
  intro s t hd hnoreset h hchange
  have hr : ¬ Claims.servesReset s := by
    rintro (⟨-, rest, hin⟩ | ⟨hd', -⟩)
    · exact hnoreset rest hin
    · simp [hd] at hd'
  obtain ⟨i, hserves, rfl⟩ := step_next_of_not_reset h hr
  have hi : DeliversTick i s.block := by
    by_contra hi
    simp [blockStep_of_not_deliversTick hi] at hchange
  rcases hi with rfl | ⟨rfl, hdiv⟩
  · cases hserves with
    | stimWord _ _ he => cases he
    | evtWord hd' => simp [hd] at hd'
  · exact ⟨hserves.hwtick_word.2, hdiv⟩

end Sys2Proof.Machine
end

section
/-! PROOFS. What no instruction reads (10_state.md section 5, 40_divider.md section 2). A rule reads the motion state and the
index; the latch and, HWTICK apart, `DIV` it only passes on. -/

namespace Sys2Proof.Machine

/-- Two results of a step that differ at most in the latch. -/
def SameButLatch (r r' : Block × Option Output) : Prop :=
  r'.2 = r.2 ∧ r'.1.state = r.1.state ∧ r'.1.idx = r.1.idx ∧ r'.1.div = r.1.div ∧ r'.1.fault = r.1.fault

theorem applyEvent_emit (e : Event) (m : MotorState) (b : Block) (o : Output) :
    SameButLatch (applyEvent e m b) (applyEvent e m (b.emit o)) := by
  simp [SameButLatch]

theorem ruleOf_emit (i : Instr) (m : MotorState) (b : Block) (o : Output) :
    SameButLatch (ruleOf i m b) (ruleOf i m (b.emit o)) := by
  cases i with
  | nop => exact ⟨rfl, rfl, rfl, rfl, rfl⟩
  | hwtick =>
    by_cases hd : b.div = 0#5
    · obtain ⟨hlabel, hstate, hidx, -, hfault⟩ := applyEvent_emit .tick m b o
      rw [ruleOf, hwtickRule_of_div_eq_zero m hd, hwtickRule_of_div_eq_zero (b := b.emit o) m hd]
      exact ⟨hlabel, hstate, hidx, rfl, hfault⟩
    · rw [ruleOf, hwtickRule_of_div_ne_zero m hd, hwtickRule_of_div_ne_zero (b := b.emit o) m hd]
      exact ⟨rfl, rfl, rfl, rfl, rfl⟩
  | cmdAdvance | evAdvance => exact applyEvent_emit .advance m b o
  | cmdRetreat | evRetreat => exact applyEvent_emit .retreat m b o
  | cmdStop | evStop => exact applyEvent_emit .stop m b o
  | evTick => exact applyEvent_emit .tick m b o

theorem blockStep_emit (i : Instr) (b : Block) (o : Output) :
    SameButLatch (blockStep i b) (blockStep i (b.emit o)) := by
  rcases blockStep_cases i b with ⟨hf, hb⟩ | ⟨hf, hl, hb⟩ | ⟨m, hm, hb⟩ <;> rw [hb]
  · obtain ⟨r, hr⟩ := Option.ne_none_iff_exists'.mp hf
    rw [blockStep_of_fault (b := b.emit o) hr]
    exact ⟨rfl, rfl, rfl, rfl, rfl⟩
  · rw [blockStep_of_illegal (b := b.emit o) hf hl]
    exact ⟨rfl, rfl, rfl, rfl, rfl⟩
  · rw [blockStep_of_readyIn (b := b.emit o) hm]
    exact ruleOf_emit i m b o

/-- Settles O28: writing the latch first is emitting a pair, which changes at most the latch of what a step leaves. -/
theorem outputLatchIsNeverRead : Obligations.OutputLatchIsNeverRead := by
  rintro i s t s' a p h rfl
  rw [exec_eq] at h
  cases h
  exact ⟨_, exec_eq i _, blockStep_emit i s.block ⟨a, p⟩⟩

theorem applyEvent_setDiv (e : Event) (m : MotorState) (b : Block) (d : DivCount) :
    applyEvent e m (b.setDiv d) = ((applyEvent e m b).1.setDiv d, (applyEvent e m b).2) := by
  simp only [applyEvent, Block.setDiv_idx]
  cases (fsm m b.idx e).out <;> rfl

theorem ruleOf_setDiv {i : Instr} (hi : i ≠ .hwtick) (m : MotorState) (b : Block) (d : DivCount) :
    ruleOf i m (b.setDiv d) = ((ruleOf i m b).1.setDiv d, (ruleOf i m b).2) := by
  cases i with
  | nop => rfl
  | hwtick => exact absurd rfl hi
  | cmdAdvance | evAdvance => exact applyEvent_setDiv .advance m b d
  | cmdRetreat | evRetreat => exact applyEvent_setDiv .retreat m b d
  | cmdStop | evStop => exact applyEvent_setDiv .stop m b d
  | evTick => exact applyEvent_setDiv .tick m b d

theorem Block.ReadyIn.setDiv {b : Block} {m : MotorState} {d : DivCount} (h : b.ReadyIn m) (hd : d.toNat ≤ 25) :
    (b.setDiv d).ReadyIn m :=
  ⟨h.1, h.2.1, hd⟩

/-- Between legal values, `DIV` passes through every instruction but HWTICK. -/
theorem blockStep_setDiv {i : Instr} (hi : i ≠ .hwtick) {b : Block} {d : DivCount} (hb : b.div.toNat ≤ 25)
    (hd : d.toNat ≤ 25) : blockStep i (b.setDiv d) = ((blockStep i b).1.setDiv d, (blockStep i b).2) := by
  rcases blockStep_cases i b with ⟨hf, h⟩ | ⟨hf, hl, h⟩ | ⟨m, hm, h⟩ <;> rw [h]
  · obtain ⟨r, hr⟩ := Option.ne_none_iff_exists'.mp hf
    exact blockStep_of_fault (b := b.setDiv d) hr
  · have hs : 5 ≤ b.state.toNat := by omega
    exact blockStep_of_illegal (b := b.setDiv d) hf (.inl hs)
  · rw [blockStep_of_readyIn (hm.setDiv hd)]
    exact ruleOf_setDiv hi m b d

/-- Settles O29. -/
theorem onlyTheDividerReadsDiv : Obligations.OnlyTheDividerReadsDiv := by
  intro i s s' d hi hb hd h
  rw [exec_eq] at h
  cases h
  have hstep := blockStep_setDiv hi hb hd
  rw [Block.setDiv] at hstep
  rw [exec_eq, hstep]
  rfl

end Sys2Proof.Machine
end

section
/-! PROOFS. What is emitted and by which rows (41_waveform.md section 2), and commands given twice (42_state_machine.md
section 5). -/

namespace Sys2Proof.Machine

theorem Block.ReadyIn.readyIn_iff {b : Block} {m : MotorState} (h : b.ReadyIn m) (n : MotorState) :
    b.ReadyIn n ↔ m = n :=
  ⟨fun hn => codeOf_injective (h.state_eq.symm.trans hn.state_eq), fun hn => hn ▸ h⟩

/-- The rows of TICK that emit, and what they emit (R78, R82, R83, R87, R91, R92). -/
theorem fsm_tick_out_eq_some_iff (m : MotorState) (i : StepIndex) (o : Output) :
    (fsm m i .tick).out = some o ↔
      ((m = .forward ∨ m = .reverse ∨ ((m = .brakingForward ∨ m = .brakingReverse) ∧ i.toNat % 8 ≠ 0)) ∧
          o = movingWaveform i) ∨
        ((m = .brakingForward ∨ m = .brakingReverse) ∧ i.toNat % 8 = 0 ∧ o = parkingWaveform i) := by
  cases m with
  | stopped => simp [fsm]
  | forward | reverse => simp [fsm, eq_comm (a := o)]
  | brakingForward | brakingReverse =>
    by_cases hb : i.toNat % 8 = 0
    · simp [fsm, boundary_iff, hb, eq_comm (a := o)]
    · simp [fsm, boundary_iff, hb, eq_comm (a := o)]

/-- An instruction that delivers a TICK emits what the row of the ready block's motion state does. -/
theorem blockStep_label_of_deliversTick {i : Instr} {b : Block} {m : MotorState} (hi : DeliversTick i b)
    (hm : b.ReadyIn m) : (blockStep i b).2 = (fsm m b.idx .tick).out := by
  rw [blockStep_of_readyIn hm]
  rcases hi with rfl | ⟨rfl, hd⟩
  · rfl
  · rw [ruleOf, hwtickRule_of_div_eq_zero m hd]
    rfl

/-- Only a ready block emits. -/
theorem blockStep_label_of_not_ready {i : Instr} {b : Block} (h : ∀ m, ¬ b.ReadyIn m) : (blockStep i b).2 = none := by
  rcases blockStep_cases i b with ⟨-, hb⟩ | ⟨-, -, hb⟩ | ⟨m, hm, -⟩
  · rw [hb]
  · rw [hb]
  · exact absurd hm (h m)

/-- Settles O31: without a TICK, or without a ready block, nothing is emitted; with both, the rows of TICK say what is. -/
theorem waveformsAreCalledOnlyByTheirRows : Obligations.WaveformsAreCalledOnlyByTheirRows := by
  refine ⟨fun i s t o h => ?instr, fun s t hr h => ?reset⟩
  case instr =>
    rw [exec_eq] at h
    cases h
    rw [State.commit_label]
    by_cases hi : DeliversTick i s.block
    · rw [DeliversTick] at hi
      simp only [hi, true_and]
      by_cases hready : ∃ m, s.block.ReadyIn m
      · obtain ⟨m, hm⟩ := hready
        simp only [blockStep_label_of_deliversTick hi hm, hm.readyIn_iff]
        exact fsm_tick_out_eq_some_iff m s.block.idx o
      · rw [not_exists] at hready
        simp [blockStep_label_of_not_ready hready, hready]
    · have hnone := (blockStep_of_not_deliversTick hi).2
      rw [DeliversTick] at hi
      simp [hnone, hi]
  case reset =>
    rw [step_of_servesReset hr] at h
    cases h
    rfl

/-- The motion state a command's event leads to is kept by the same event. -/
theorem fsm_command_idempotent {e : Event} (he : e ≠ .tick) (m : MotorState) (i : StepIndex) :
    (fsm (fsm m i e).state i e).state = (fsm m i e).state := by
  cases e
  case tick => exact absurd rfl he
  all_goals cases m <;> rfl

/-- Settles O38: a faulted block is kept, one that has just faulted likewise, and a ready block keeps the motion state that
its event has led to. -/
theorem commandsAreIdempotent : Obligations.CommandsAreIdempotent := by
  intro i s t hi h
  obtain ⟨e, he, hrule⟩ := IsMotionCommand.ruleOf_eq hi
  rcases blockStep_cases i s.block with ⟨hf, -⟩ | ⟨hf, hl, -⟩ | ⟨m, hm, -⟩
  · rw [exec_of_fault i hf] at h
    cases h
    exact exec_of_fault i hf
  · rw [exec_of_illegal i hf hl] at h
    cases h
    exact exec_of_fault i (by simp)
  · rw [exec_of_command hm hrule he] at h
    cases h
    have hm' : ({ s.block with state := codeOf (fsm m s.block.idx e).state } : Block).ReadyIn
        (fsm m s.block.idx e).state := ⟨hm.1, rfl, hm.2.2⟩
    exact exec_of_idle_command (s := { s with block := _, label := none }) hm' hrule he
      (fsm_command_idempotent he m s.block.idx)

end Sys2Proof.Machine
end

section
/-! PROOFS. Two stimuli that wait together, in either order (60_exceptions.md section 2, decision D10). -/

namespace Sys2Proof.Machine

theorem runFrom_two_words {b : Block} {w v : StimWord} {i j : Instr} (hw : encode i = .stim w) (hv : encode j = .stim v) :
    (runFrom b [.word w, .word v]).block = (blockStep j (blockStep i b).1).1 := by
  rw [runFrom_word (decodeStim_of_encode hw), runFrom_word (decodeStim_of_encode hv), runFrom_nil]

theorem Block.ReadyIn.setState {b : Block} {m : MotorState} (h : b.ReadyIn m) (n : MotorState) :
    ({ b with state := codeOf n } : Block).ReadyIn n :=
  ⟨h.1, rfl, h.2.2⟩

/-- On a ready block, a command sets the motion state to that of its event's row. -/
theorem blockStep_command_of_readyIn {b : Block} {m : MotorState} {i : Instr} {e : Event} (h : b.ReadyIn m)
    (hi : ruleOf i = applyEvent e) (he : e ≠ .tick) :
    blockStep i b = ({ b with state := codeOf (fsm m b.idx e).state }, none) := by
  rw [blockStep_of_readyIn h, hi, applyEvent_command he]

/-- Settles O40: each order starts the motion of its first command, and the second brakes it. -/
theorem orderOfCommandsMatters : Obligations.OrderOfCommandsMatters := by
  intro b h
  have hadvance : blockStep .cmdAdvance b = ({ b with state := codeOf .forward }, none) :=
    blockStep_command_of_readyIn (e := .advance) h rfl (by decide)
  have hretreat : blockStep .cmdRetreat b = ({ b with state := codeOf .reverse }, none) :=
    blockStep_command_of_readyIn (e := .retreat) h rfl (by decide)
  rw [runFrom_two_words (i := .cmdAdvance) (j := .cmdRetreat) rfl rfl, hadvance,
    blockStep_command_of_readyIn (e := .retreat) (h.setState .forward) rfl (by decide),
    runFrom_two_words (i := .cmdRetreat) (j := .cmdAdvance) rfl rfl, hretreat,
    blockStep_command_of_readyIn (e := .advance) (h.setState .reverse) rfl (by decide)]
  exact ⟨rfl, rfl⟩

theorem blockStep_hwtick_of_div_ne_zero {b : Block} {m : MotorState} (h : b.ReadyIn m) (hd : b.div ≠ 0#5) :
    blockStep .hwtick b = (b.setDiv (divNext b.div), none) := by
  rw [blockStep_of_readyIn h, ruleOf, hwtickRule_of_div_ne_zero m hd]

/-- A HWTICK that fires no TICK commutes with a command, in a faulted and in an illegal state as well. -/
theorem hwtick_comm_command {i : Instr} (hi : IsMotionCommand i) {b : Block} (hd : b.div ≠ 0#5) :
    (blockStep i (blockStep .hwtick b).1).1 = (blockStep .hwtick (blockStep i b).1).1 := by
  by_cases hf : b.fault = none
  · by_cases hready : b.Ready
    · obtain ⟨m, hm⟩ := hready.readyIn
      obtain ⟨e, he, hrule⟩ := hi.ruleOf_eq
      have hdiv : (divNext b.div).toNat ≤ 25 := counted_div_le .hwtick hm.div_le
      rw [blockStep_hwtick_of_div_ne_zero hm hd, blockStep_command_of_readyIn (hm.setDiv hdiv) hrule he,
        blockStep_command_of_readyIn hm hrule he, blockStep_hwtick_of_div_ne_zero (hm.setState _) hd]
      rfl
    · have hl : 5 ≤ b.state.toNat ∨ 26 ≤ b.div.toNat := by
        by_contra hl
        exact hready ⟨hf, by omega, by omega⟩
      simp only [blockStep_of_illegal hf hl, blockStep_of_fault (Block.raiseFault_fault b .illegalState)]
  · obtain ⟨r, hr⟩ := Option.ne_none_iff_exists'.mp hf
    simp only [blockStep_of_fault hr]

/-- Settles O41, for each of the command words. -/
theorem silentHwtickCommutesWithCommands : Obligations.SilentHwtickCommutesWithCommands := by
  intro b w hw hd
  have hcommand : ∃ i, IsMotionCommand i ∧ encode i = .stim w := by
    rcases hw with rfl | rfl | rfl
    · exact ⟨.cmdAdvance, .inl rfl, rfl⟩
    · exact ⟨.cmdRetreat, .inr (.inl rfl), rfl⟩
    · exact ⟨.cmdStop, .inr (.inr (.inl rfl)), rfl⟩
  obtain ⟨i, hi, he⟩ := hcommand
  rw [runFrom_two_words (i := .hwtick) rfl he, runFrom_two_words (j := .hwtick) he rfl]
  exact hwtick_comm_command hi hd

end Sys2Proof.Machine
end

section
/-! PROOFS. Runs over any items: the refusal mark (60_exceptions.md section 1, decision D18), and the steps of the machine
beside the run of the block (00_scope.md section 4, decisions D1 and D21). -/

namespace Sys2Proof.Machine

/-- Settles O51, by induction on the inputs: a reserved word only sets the mark, and every other input stays. -/
theorem refusedWordsLeaveNoTrace : Obligations.RefusedWordsLeaveNoTrace := by
  intro b xs
  induction xs generalizing b with
  | nil => simp
  | cons x xs ih =>
    rcases x with w | _
    · rcases decodeStim_cases w with ⟨i, hi, -, hw⟩ | ⟨-, hw⟩
      · have hkeep : Claims.isAccepted (.word w) = true := decide_eq_true hw
        obtain ⟨hblock, hlabels, hrefused⟩ := ih (blockStep i b).1
        rw [List.filter_cons_of_pos hkeep, runFrom_word hi, runFrom_word hi]
        refine ⟨hblock, congrArg (List.cons _) hlabels, hrefused.trans (exists_congr fun v => and_congr_right fun hv => ?_)⟩
        have hne : v ≠ w := by
          rintro rfl
          omega
        simp [hne]
      · have hdrop : ¬ Claims.isAccepted (.word w) = true := by
          simp only [Claims.isAccepted, decide_eq_true_eq]
          omega
        obtain ⟨hblock, hlabels, -⟩ := ih b
        rw [List.filter_cons_of_neg hdrop, runFrom_refused hw]
        exact ⟨hblock, hlabels, fun _ => ⟨w, hw, List.mem_cons_self⟩, fun _ => rfl⟩
    · obtain ⟨hblock, hlabels, hrefused⟩ := ih Block.reset
      rw [List.filter_cons_of_pos rfl, runFrom_reset, runFrom_reset]
      exact ⟨hblock, congrArg (List.cons _) hlabels, hrefused.trans (by simp)⟩

/-- If one step from every state that serves `x` takes the item off and commits what the run of `x` alone does, then the
steps over a list of such items follow the run of the list. `waiting` are the items of the port that `dec` decodes. -/
theorem core_run_follows {α : Type} {dec : α → Except DecodeRefusal Instr} {f : Format} {waiting : State → List (Item α)}
    (xs : List (Item α))
    (hstep : ∀ x ∈ xs, ∀ (s : State) (rest : List (Item α)), s.drive = f → waiting s = x :: rest →
      ∃ t l, step s = .next t ∧ t.drive = f ∧ waiting t = rest ∧ t.label = l ∧
        ∀ ys, (runWith dec s.block (x :: ys)).block = (runWith dec t.block ys).block ∧
          (runWith dec s.block (x :: ys)).labels = l :: (runWith dec t.block ys).labels)
    {s : State} {rest : List (Item α)} (hd : s.drive = f) (hw : waiting s = xs ++ rest) :
    ∃ t, Sys2Proof.core.run xs.length s = .next t ∧ waiting t = rest ∧ t.block = (runWith dec s.block xs).block ∧
      t.label = ((runWith dec s.block xs).labels.getLast?).getD s.label := by
  induction xs generalizing s with
  | nil => exact ⟨s, core_run_zero s, hw, rfl, rfl⟩
  | cons x xs ih =>
    obtain ⟨u, l, hsu, hdu, hwu, hl, hrun⟩ := hstep x List.mem_cons_self s (xs ++ rest) hd hw
    obtain ⟨t, ht, hwt, hblock, hlabel⟩ := ih (fun y hy => hstep y (List.mem_cons_of_mem x hy)) hdu hwu
    refine ⟨t, (core_run_of_next hsu).trans ht, hwt, hblock.trans (hrun xs).1.symm, ?_⟩
    rw [hlabel, (hrun xs).2, List.getLast?_cons, Option.getD_some, hl]

/-- Settles O52: on each port, a step that serves an accepted word or a reset commits what the run of that item does. -/
theorem machineStepsFollowTheRun : Obligations.MachineStepsFollowTheRun := by
  refine ⟨fun s xs rest hd hin hxs => ?stim, fun s es rest hd hev => ?evt⟩
  case stim =>
    refine core_run_follows (dec := decodeStim) (waiting := State.input) xs (fun x hx s rest hd hin => ?_) hd hin
    rcases x with w | _
    · rcases decodeStim_cases w with ⟨i, hi, -, -⟩ | ⟨-, hw⟩
      · refine ⟨_, _, (step_stim_word hd hin hi).trans (exec_eq i _), hd, rfl, rfl, fun ys => ?_⟩
        rw [runWith_word hi]
        exact ⟨rfl, rfl⟩
      · have := hxs w hx
        omega
    · refine ⟨_, _, step_stim_reset hd hin, hd, rfl, rfl, fun ys => ?_⟩
      rw [runWith_reset]
      exact ⟨rfl, rfl⟩
  case evt =>
    refine core_run_follows (dec := decodeEvent) (waiting := State.events) es (fun x _ s rest hd hev => ?_) hd hev
    rcases x with e | _
    · refine ⟨_, _, (step_evt_word hd hev).trans (exec_eq _ _), hd, rfl, rfl, fun ys => ?_⟩
      rw [runWith_word (dec := decodeEvent) rfl]
      exact ⟨rfl, rfl⟩
    · refine ⟨_, _, step_evt_reset hd hev, hd, rfl, rfl, fun ys => ?_⟩
      rw [runWith_reset]
      exact ⟨rfl, rfl⟩

end Sys2Proof.Machine
end

section
/-! PROOFS. TICK events in a row (42_state_machine.md section 2, 70_reset_and_hazards.md section 3). Along a way of motion each
TICK emits the moving waveform of the index it leaves, and whatever events the motion state ignores may stand between them;
`runEvents_along` is the one induction. -/

namespace Sys2Proof.Machine

/-- The run of one more accepted word. -/
theorem runWith_concat_word {α : Type} {dec : α → Except DecodeRefusal Instr} {w : α} {i : Instr} (hd : dec w = .ok i)
    (b : Block) (xs : List (Item α)) :
    runWith dec b (xs ++ [.word w]) = (runWith dec b xs).add (blockStep i (runWith dec b xs).block) := by
  simp [runWith, Run.next, hd]

theorem runEvents_concat_word (b : Block) (es : List FsmInput) (e : EvtWord) :
    runEvents b (es ++ [.word e]) = (runEvents b es).add (blockStep (decodeEvt e) (runEvents b es).block) :=
  runWith_concat_word (dec := decodeEvent) rfl b es

theorem Run.emissions_add (r : Run) (x : Block × Option Output) :
    (r.add x).emissions = r.emissions ++ x.2.toList := by
  cases h : x.2 <;> simp [Run.emissions, h]

theorem runEvents_cons_block (b : Block) (e : EvtWord) (es : List FsmInput) :
    (runEvents b (.word e :: es)).block = (runEvents (blockStep (decodeEvt e) b).1 es).block := by
  rw [runEvents_word]

theorem runEvents_append_block (b : Block) (xs ys : List FsmInput) :
    (runEvents b (xs ++ ys)).block = (runEvents (runEvents b xs).block ys).block := by
  rw [runEvents_append]

theorem decodeEvt_tick : decodeEvt 0b11#2 = .evTick := rfl

/-- From index `i`, a TICK takes a block that is ready in `m` on by `k` places, with the moving waveform of `i`. -/
def Goes (m : MotorState) (k : Nat) (i : StepIndex) : Prop :=
  ∀ b : Block, b.ReadyIn m → b.idx = i →
    blockStep .evTick b = (({ b with idx := idxPlus i k } : Block).emit (movingWaveform i), some (movingWaveform i))

theorem goes_forward {m : MotorState} {i : StepIndex} (hm : m = .forward ∨ m = .brakingForward ∧ i.toNat % 8 ≠ 0) :
    Goes m 1 i := by
  rintro b h rfl
  rw [blockStep_of_readyIn h, ← idxForward_eq_idxPlus]
  exact applyEvent_tick_forward h hm

theorem goes_backward {m : MotorState} {i : StepIndex} (hm : m = .reverse ∨ m = .brakingReverse ∧ i.toNat % 8 ≠ 0) :
    Goes m 31 i := by
  rintro b h rfl
  rw [blockStep_of_readyIn h, ← idxBackward_eq_idxPlus]
  exact applyEvent_tick_backward h hm

theorem Way.goes_moving {moving braking : MotorState} {k : Nat} (hw : Way moving braking k) (i : StepIndex) :
    Goes moving k i := by
  cases hw with
  | forward => exact goes_forward (.inl rfl)
  | reverse => exact goes_backward (.inl rfl)

theorem Way.goes_braking {moving braking : MotorState} {k : Nat} (hw : Way moving braking k) {i : StepIndex}
    (hi : i.toNat % 8 ≠ 0) : Goes braking k i := by
  cases hw with
  | forward => exact goes_forward (.inr ⟨rfl, hi⟩)
  | reverse => exact goes_backward (.inr ⟨rfl, hi⟩)

/-- The event has no effect on a block that is ready in `m`. -/
def Ignores (m : MotorState) (e : EvtWord) : Prop :=
  ∀ b : Block, b.ReadyIn m → blockStep (decodeEvt e) b = (b, none)

/-- While each TICK goes on by `k` places and every other event is ignored, the TICKs alone count: they move the index, write
the latch and change nothing else, and their emissions are the moving waveforms of the indices left, in order. -/
theorem runEvents_along {m : MotorState} {k : Nat} {b : Block} (h : b.ReadyIn m) (es : List FsmInput)
    (hes : ∀ x ∈ es, x = .word 0b11#2 ∨ ∃ e, x = .word e ∧ Ignores m e)
    (hgoes : ∀ j < es.count (.word 0b11#2), Goes m k (idxPlus b.idx (k * j))) :
    (∃ o, (runEvents b es).block =
        ({ b with idx := idxPlus b.idx (k * es.count (.word 0b11#2)) } : Block).emit o) ∧
      (runEvents b es).emissions =
        (List.range (es.count (.word 0b11#2))).map fun j => movingWaveform (idxPlus b.idx (k * j)) := by
  induction es using List.reverseRecOn with
  | nil => exact ⟨⟨⟨b.outAmp, b.outPol⟩, by rw [List.count_nil, Nat.mul_zero, idxPlus_zero]; rfl⟩, rfl⟩
  | append_singleton es x ih =>
    rw [List.count_append, List.count_singleton] at hgoes ⊢
    obtain ⟨⟨o, hblock⟩, hemissions⟩ :=
      ih (fun y hy => hes y (List.mem_append_left _ hy)) fun j hj => hgoes j (by omega)
    have hready : (runEvents b es).block.ReadyIn m := by
      rw [hblock]
      exact h
    by_cases hx : x = .word 0b11#2
    · subst hx
      have hstep := hgoes (es.count (.word 0b11#2)) (by simp) _ hready (by rw [hblock]; rfl)
      rw [idxPlus_idxPlus, ← Nat.mul_succ] at hstep
      rw [runEvents_concat_word, Run.emissions_add, Run.add_block, decodeEvt_tick, hstep, hemissions, hblock]
      refine ⟨⟨_, rfl⟩, ?_⟩
      rw [if_pos (by rfl), List.range_succ, List.map_append]
      rfl
    · obtain ⟨e, rfl, he⟩ := (hes x (by simp)).resolve_left hx
      rw [runEvents_concat_word, Run.emissions_add, Run.add_block, he _ hready, if_neg (by simpa using hx)]
      exact ⟨⟨o, hblock⟩, by rw [hemissions]; exact List.append_nil _⟩

theorem ticks_succ (n : Nat) : Claims.ticks (n + 1) = Claims.ticks n ++ [.word 0b11#2] := List.replicate_succ'

theorem replicate_word_without_reset {α : Type} (n : Nat) (w : α) :
    ∀ x ∈ List.replicate n (Item.word w), x ≠ .reset := by
  intro x hx
  rw [List.eq_of_mem_replicate hx]
  simp

theorem count_ticks (n : Nat) : (Claims.ticks n).count (.word 0b11#2) = n := List.count_replicate_self

/-- `n` TICKs along a way of motion. -/
theorem runEvents_ticks_along {m : MotorState} {k n : Nat} {b : Block} (h : b.ReadyIn m)
    (hgoes : ∀ j < n, Goes m k (idxPlus b.idx (k * j))) :
    (∃ o, (runEvents b (Claims.ticks n)).block = ({ b with idx := idxPlus b.idx (k * n) } : Block).emit o) ∧
      (runEvents b (Claims.ticks n)).emissions =
        (List.range n).map fun j => movingWaveform (idxPlus b.idx (k * j)) := by
  have halong := runEvents_along (k := k) h (Claims.ticks n) (fun x hx => .inl (List.eq_of_mem_replicate hx))
    (by rwa [count_ticks])
  rwa [count_ticks] at halong

/-- `n` TICKs in a moving state. -/
theorem runEvents_ticks_moving {moving braking : MotorState} {k : Nat} (hw : Way moving braking k) {b : Block}
    (h : b.ReadyIn moving) (n : Nat) :
    (runEvents b (Claims.ticks n)).emissions =
        (List.range n).map (fun j => movingWaveform (idxPlus b.idx (k * j))) ∧
      (runEvents b (Claims.ticks n)).block.idx = idxPlus b.idx (k * n) ∧
      (runEvents b (Claims.ticks n)).block.ReadyIn moving := by
  obtain ⟨⟨o, hblock⟩, hemissions⟩ := runEvents_ticks_along (n := n) h fun j _ => hw.goes_moving _
  rw [hblock]
  exact ⟨hemissions, rfl, h⟩

/-- 32 steps along either way are once or 31 times round the cycle. -/
theorem idxPlus_cycle (i : StepIndex) (k : Nat) : idxPlus i (k * 32) = i := by
  apply BitVec.eq_of_toNat_eq
  have hi := i.isLt
  rw [idxPlus_toNat]
  omega

/-- Settles O46. -/
theorem ticksGoRoundTheCycle : Obligations.TicksGoRoundTheCycle := by
  refine fun b n => ⟨fun h => ?_, fun h => ?_⟩
  · obtain ⟨hemissions, hidx, ⟨-, hstate, -⟩⟩ := runEvents_ticks_moving .forward h n
    obtain ⟨-, hcycle, -⟩ := runEvents_ticks_moving .forward h 32
    simp only [Nat.one_mul] at hemissions hidx
    exact ⟨hemissions, by rw [hidx, idxPlus_toNat], hcycle.trans (idxPlus_cycle b.idx 1), hstate⟩
  · obtain ⟨hemissions, hidx, ⟨-, hstate, -⟩⟩ := runEvents_ticks_moving .reverse h n
    obtain ⟨-, hcycle, -⟩ := runEvents_ticks_moving .reverse h 32
    exact ⟨hemissions, by rw [hidx, idxPlus_toNat], hcycle.trans (idxPlus_cycle b.idx 31), hstate⟩

/-! Braking. -/

/-- On a boundary a TICK parks a braking block (R82, R91). -/
theorem blockStep_evTick_parks {m : MotorState} {b : Block} (h : b.ReadyIn m)
    (hm : m = .brakingForward ∨ m = .brakingReverse) (hb : b.idx.toNat % 8 = 0) :
    blockStep .evTick b =
      (({ b with state := codeOf .stopped } : Block).emit (parkingWaveform b.idx), some (parkingWaveform b.idx)) := by
  rw [blockStep_of_readyIn h]
  exact applyEvent_tick_parks hm hb

theorem Way.braking_cases {moving braking : MotorState} {k : Nat} (hw : Way moving braking k) :
    braking = .brakingForward ∨ braking = .brakingReverse := by
  cases hw <;> simp

/-- `n` steps of `k` places from index `i` are the first to reach a boundary: the moving steps of a block that brakes. -/
def BrakesAfter (k : Nat) (i : StepIndex) (n : Nat) : Prop :=
  (∀ j < n, (idxPlus i (k * j)).toNat % 8 ≠ 0) ∧ (idxPlus i (k * n)).toNat % 8 = 0

theorem brakesAfter_forward (i : StepIndex) : BrakesAfter 1 i ((8 - i.toNat % 8) % 8) := by
  refine ⟨fun j hj => ?_, ?_⟩ <;> rw [idxPlus_toNat] <;> omega

theorem brakesAfter_backward (i : StepIndex) : BrakesAfter 31 i (i.toNat % 8) := by
  refine ⟨fun j hj => ?_, ?_⟩ <;> rw [idxPlus_toNat] <;> omega

/-- No command leads out of a braking state. -/
theorem Turns.of_braking {m m' : MotorState} (ht : Turns m m') (hm : m = .brakingForward ∨ m = .brakingReverse) :
    m' = m := by
  cases ht with
  | stay => rfl
  | startForward | startReverse | brakeForward | brakeReverse => simp at hm

/-- A command has no effect on a braking block (R79 to R81, R88 to R90). -/
theorem blockStep_command_of_braking {m : MotorState} (hm : m = .brakingForward ∨ m = .brakingReverse) {i : Instr}
    (hi : IsMotionCommand i) {b : Block} (h : b.ReadyIn m) : blockStep i b = (b, none) := by
  obtain ⟨e, he, hrule⟩ := hi.ruleOf_eq
  rw [blockStep_command_of_readyIn h hrule he, (fsm_command_turns he m b.idx).of_braking hm, h.set_same_state]

theorem isMotionCommand_decodeEvt : ∀ e : EvtWord, e ≠ 0b11#2 → IsMotionCommand (decodeEvt e) := by
  unfold IsMotionCommand
  decide

/-- Over any events without a reset, a braking block goes on by the TICKs alone, while they stay off boundaries. -/
theorem runEvents_braking {moving braking : MotorState} {k : Nat} (hw : Way moving braking k) {b : Block}
    (h : b.ReadyIn braking) {es : List FsmInput} (hreset : ∀ x ∈ es, x ≠ .reset)
    (hoff : ∀ j < es.count (.word 0b11#2), (idxPlus b.idx (k * j)).toNat % 8 ≠ 0) :
    (∃ o, (runEvents b es).block =
        ({ b with idx := idxPlus b.idx (k * es.count (.word 0b11#2)) } : Block).emit o) ∧
      (runEvents b es).emissions =
        (List.range (es.count (.word 0b11#2))).map fun j => movingWaveform (idxPlus b.idx (k * j)) := by
  refine runEvents_along h es (fun x hx => ?_) fun j hj => hw.goes_braking (hoff j hj)
  rcases x with e | _
  · by_cases he : e = 0b11#2
    · exact .inl (by rw [he])
    · exact .inr ⟨e, rfl, fun c hc => blockStep_command_of_braking hw.braking_cases (isMotionCommand_decodeEvt e he) hc⟩
  · exact absurd rfl (hreset .reset hx)

/-- Once the TICKs have come to a boundary, the next one parks there. -/
theorem runEvents_braking_parks {moving braking : MotorState} {k : Nat} (hw : Way moving braking k) {b : Block}
    (h : b.ReadyIn braking) {es : List FsmInput} (hreset : ∀ x ∈ es, x ≠ .reset)
    (hn : BrakesAfter k b.idx (es.count (.word 0b11#2))) :
    (runEvents b (es ++ [.word 0b11#2])).block =
        ({ b with state := codeOf .stopped, idx := idxPlus b.idx (k * es.count (.word 0b11#2)) } : Block).emit
          (parkingWaveform (idxPlus b.idx (k * es.count (.word 0b11#2)))) ∧
      (runEvents b (es ++ [.word 0b11#2])).emissions =
        (List.range (es.count (.word 0b11#2))).map (fun j => movingWaveform (idxPlus b.idx (k * j))) ++
          [parkingWaveform (idxPlus b.idx (k * es.count (.word 0b11#2)))] := by
  obtain ⟨hoff, hon⟩ := hn
  obtain ⟨⟨o, hblock⟩, hemissions⟩ := runEvents_braking hw h hreset hoff
  have hready : (runEvents b es).block.ReadyIn braking := by
    rw [hblock]
    exact h
  have hparks := blockStep_evTick_parks hready hw.braking_cases (by rw [hblock]; exact hon)
  rw [runEvents_concat_word, Run.emissions_add, Run.add_block, decodeEvt_tick, hparks, hemissions, hblock]
  exact ⟨rfl, rfl⟩

theorem runEvents_braking_stops {moving braking : MotorState} {k n : Nat} (hw : Way moving braking k) {b : Block}
    (h : b.ReadyIn braking) {es : List FsmInput} (hreset : ∀ x ∈ es, x ≠ .reset) (hn : BrakesAfter k b.idx n)
    (hcount : es.count (.word 0b11#2) = n) :
    (runEvents b (es ++ [.word 0b11#2])).block.state = codeOf .stopped ∧
      (runEvents b (es ++ [.word 0b11#2])).block.idx.toNat % 8 = 0 := by
  subst hcount
  rw [(runEvents_braking_parks hw h hreset hn).1]
  exact ⟨rfl, hn.2⟩

/-- Settles O49: a command keeps a braking block, so only the TICKs among the events count, and the one that finds the
boundary parks. -/
theorem brakingCannotBeCancelled : Obligations.BrakingCannotBeCancelled := by
  refine ⟨fun s i h hi => ?noop, fun b es hreset => ⟨fun h => ⟨fun hle => ?forward, fun hn => ?forwardParks⟩,
    fun h => ⟨fun hle => ?reverse, fun hn => ?reverseParks⟩⟩⟩
  case noop =>
    have hkeep : blockStep i s.block = (s.block, none) := by
      rcases h with h | h
      · exact blockStep_command_of_braking (.inl rfl) hi h
      · exact blockStep_command_of_braking (.inr rfl) hi h
    rw [exec_eq, hkeep]
    rfl
  case forward =>
    obtain ⟨hoff, -⟩ := brakesAfter_forward b.idx
    obtain ⟨⟨o, hblock⟩, -⟩ := runEvents_braking .forward h hreset fun j hj => hoff j (by omega)
    rw [hblock]
    exact ⟨h.state_eq, by rw [Block.emit_idx, idxPlus_toNat, Nat.one_mul]⟩
  case forwardParks =>
    exact runEvents_braking_stops .forward h hreset (brakesAfter_forward b.idx) hn
  case reverse =>
    obtain ⟨hoff, -⟩ := brakesAfter_backward b.idx
    obtain ⟨⟨o, hblock⟩, -⟩ := runEvents_braking .reverse h hreset fun j hj => hoff j (by omega)
    have hi := b.idx.isLt
    rw [hblock]
    exact ⟨h.state_eq, by rw [Block.emit_idx, idxPlus_toNat]; omega⟩
  case reverseParks =>
    exact runEvents_braking_stops .reverse h hreset (brakesAfter_backward b.idx) hn

/-- `n` TICKs bring a braking block to the boundary, still braking all the way; the next one parks it. -/
theorem runEvents_ticks_braking {moving braking : MotorState} {k n : Nat} (hw : Way moving braking k) {b : Block}
    (h : b.ReadyIn braking) (hn : BrakesAfter k b.idx n) :
    (runEvents b (Claims.ticks (n + 1))).block =
        ({ b with state := codeOf .stopped, idx := idxPlus b.idx (k * n) } : Block).emit
          (parkingWaveform (idxPlus b.idx (k * n))) ∧
      (runEvents b (Claims.ticks (n + 1))).emissions =
        (List.range n).map (fun j => movingWaveform (idxPlus b.idx (k * j))) ++
          [parkingWaveform (idxPlus b.idx (k * n))] ∧
      ∀ j ≤ n, (runEvents b (Claims.ticks j)).block.state = codeOf braking := by
  have hparks := runEvents_braking_parks hw h (es := Claims.ticks n) (replicate_word_without_reset n _)
    (by rwa [count_ticks])
  rw [count_ticks, ← ticks_succ] at hparks
  refine ⟨hparks.1, hparks.2, fun j hj => ?_⟩
  obtain ⟨⟨o, hblock⟩, -⟩ :=
    runEvents_ticks_along (n := j) h fun l hl => hw.goes_braking (hn.1 l (Nat.lt_of_lt_of_le hl hj))
  rw [hblock]
  exact h.state_eq

/-- Going backward is going down while that does not pass 0. -/
theorem idxPlus_backward {i : StepIndex} {j : Nat} (h : j ≤ i.toNat) :
    idxPlus i (31 * j) = BitVec.ofNat 5 (i.toNat - j) := by
  apply BitVec.eq_of_toNat_eq
  rw [idxPlus_toNat, BitVec.toNat_ofNat]
  omega

/-- Settles O48, the number of TICKs being that of `BrakesAfter` for each way of motion. -/
theorem brakingParksOnTheNextBoundary : Obligations.BrakingParksOnTheNextBoundary := by
  refine fun b k => ⟨fun h hk => ?forward, fun h hk => ?reverse⟩
  case forward =>
    have hboundary := brakesAfter_forward b.idx
    rw [← hk] at hboundary
    obtain ⟨hblock, hemissions, hbrakes⟩ := runEvents_ticks_braking .forward h hboundary
    simp only [Nat.one_mul] at hblock hemissions
    exact ⟨hblock, by omega, hemissions, hbrakes⟩
  case reverse =>
    have hboundary := brakesAfter_backward b.idx
    rw [← hk] at hboundary
    obtain ⟨hblock, hemissions, hbrakes⟩ := runEvents_ticks_braking .reverse h hboundary
    have hle : k ≤ b.idx.toNat := hk ▸ Nat.mod_le _ _
    have hindices : (List.range k).map (fun j => movingWaveform (idxPlus b.idx (31 * j))) =
        (List.range k).map fun j => movingWaveform (BitVec.ofNat 5 (b.idx.toNat - j)) := by
      refine List.map_congr_left fun j hj => ?_
      rw [idxPlus_backward ((List.mem_range.mp hj).le.trans hle)]
    rw [idxPlus_backward hle] at hblock hemissions
    rw [hindices] at hemissions
    exact ⟨hblock, by omega, hemissions, hbrakes⟩

/-- Moving forward on a boundary, RETREAT, TICK and RETREAT park the block and start it backward from the same index. -/
theorem runEvents_turn_back {b : Block} (h : b.ReadyIn .forward) (hb : b.idx.toNat % 8 = 0) :
    (runEvents b [.word 0b01#2, .word 0b11#2, .word 0b01#2]).block.ReadyIn .reverse ∧
      (runEvents b [.word 0b01#2, .word 0b11#2, .word 0b01#2]).block.idx = b.idx := by
  have hbrake : blockStep (decodeEvt 0b01#2) b = ({ b with state := codeOf .brakingForward }, none) :=
    blockStep_command_of_readyIn (e := .retreat) h rfl (by decide)
  have hpark : blockStep (decodeEvt 0b11#2) { b with state := codeOf .brakingForward } =
      (({ b with state := codeOf .stopped } : Block).emit (parkingWaveform b.idx), some (parkingWaveform b.idx)) :=
    blockStep_evTick_parks (h.setState .brakingForward) (.inl rfl) hb
  have hrest : (({ b with state := codeOf .stopped } : Block).emit (parkingWaveform b.idx)).ReadyIn .stopped :=
    h.setState .stopped
  rw [runEvents_cons_block, hbrake, runEvents_cons_block, hpark, runEvents_cons_block, runEvents_nil,
    blockStep_command_of_readyIn (i := decodeEvt 0b01#2) (e := .retreat) hrest rfl (by decide)]
  exact ⟨hrest.setState .reverse, rfl⟩

/-- Settles O47: the block goes forward `n` places to a boundary, turns back there, and goes on by 31 times `n` places, which
closes the cycle. -/
theorem forwardThenBackReturns : Obligations.ForwardThenBackReturns := by
  intro b n h hn
  have hadvance : blockStep (decodeEvt 0b00#2) b = ({ b with state := codeOf .forward }, none) :=
    blockStep_command_of_readyIn (e := .advance) h rfl (by decide)
  obtain ⟨-, hidx, hforward⟩ := runEvents_ticks_moving .forward (h.setState .forward) n
  have hboundary : (idxPlus b.idx (1 * n)).toNat % 8 = 0 := by
    rw [idxPlus_toNat]
    omega
  have hclose : idxPlus (idxPlus b.idx (1 * n)) (31 * n) = b.idx := by
    rw [idxPlus_idxPlus, ← Nat.add_mul, Nat.mul_comm, idxPlus_cycle]
  obtain ⟨hreverse, hidx'⟩ := runEvents_turn_back hforward (by rw [hidx]; exact hboundary)
  rw [List.append_assoc, List.cons_append, runEvents_cons_block, hadvance, runEvents_append_block,
    runEvents_append_block, (runEvents_ticks_moving .reverse hreverse n).2.1, hidx', hidx]
  exact hclose

end Sys2Proof.Machine
end

section
/-! PROOFS. Hardware ticks (40_divider.md section 2). `n` HWTICK words do what the TICKs among them do, with `DIV` counted
on; what TICK events do in a row then says what hardware ticks do. -/

namespace Sys2Proof.Machine

theorem runFrom_concat_word {w : StimWord} {i : Instr} (hw : encode i = .stim w) (b : Block) (xs : List Input) :
    runFrom b (xs ++ [.word w]) = (runFrom b xs).add (blockStep i (runFrom b xs).block) :=
  runWith_concat_word (decodeStim_of_encode hw) b xs

/-- A run of words that the port accepts is not refused, and keeps a ready block ready. -/
theorem runWith_accepted {α : Type} {dec : α → Except DecodeRefusal Instr} {b : Block} {xs : List (Item α)}
    (h : b.Ready) (hdec : ∀ w, .word w ∈ xs → ∃ i, dec w = .ok i) :
    (runWith dec b xs).refused = false ∧ (runWith dec b xs).block.Ready := by
  induction xs generalizing b with
  | nil => exact ⟨rfl, h⟩
  | cons x xs ih =>
    have hrest : ∀ w, .word w ∈ xs → ∃ i, dec w = .ok i := fun w hw => hdec w (List.mem_cons_of_mem x hw)
    rcases x with w | _
    · obtain ⟨i, hi⟩ := hdec w List.mem_cons_self
      rw [runWith_word hi]
      exact ih (blockStep_ready i h) hrest
    · rw [runWith_reset]
      exact ih reset_ready hrest

theorem runEvents_ready {b : Block} (h : b.Ready) (es : List FsmInput) : (runEvents b es).block.Ready :=
  (runWith_accepted (dec := decodeEvent) h fun e _ => ⟨decodeEvt e, rfl⟩).2

/-- No event changes `DIV`. -/
theorem runEvents_div (b : Block) {es : List FsmInput} (hreset : ∀ x ∈ es, x ≠ .reset) :
    (runEvents b es).block.div = b.div := by
  induction es generalizing b with
  | nil => rfl
  | cons x es ih =>
    rcases x with e | _
    · have he : decodeEvt e ≠ .hwtick := by
        intro h
        have hword := encode_decodeEvt e
        rw [h] at hword
        cases hword
      rw [runEvents_cons_block, ih _ fun y hy => hreset y (List.mem_cons_of_mem _ hy), blockStep_div_of_ne_hwtick he]
    · exact absurd rfl (hreset .reset List.mem_cons_self)

/-- Only HWTICK has HWTICK's word. -/
theorem word_ne_hwtick {i : Instr} {w : StimWord} (he : encode i = .stim w) (hi : i ≠ .hwtick) :
    (.word w : Input) ≠ .word 0b001#3 := by
  intro hw
  cases hw
  exact hi (encode_injective he)

/-- Settles O42, by induction on the inputs: HWTICK counts `DIV` on, every other stimulus keeps it, and a reserved word has no
step. -/
theorem dividerCountsHwticks : Obligations.DividerCountsHwticks := by
  intro b xs h hreset
  induction xs generalizing b with
  | nil =>
    have hd := h.div_le
    simp only [runFrom_nil, List.count_nil]
    omega
  | cons x xs ih =>
    have hrest : ∀ y ∈ xs, y ≠ .reset := fun y hy => hreset y (List.mem_cons_of_mem x hy)
    rcases x with w | _
    · rcases decodeStim_cases w with ⟨i, hdec, he, -⟩ | ⟨-, hw⟩
      · have hstep := blockStep_div_of_ready i h
        rw [runFrom_word hdec]
        simp only [ih _ (blockStep_ready i h) hrest, hstep]
        by_cases hi : i = .hwtick
        · subst hi
          cases he
          rw [if_pos rfl, divNext_toNat, List.count_cons_self]
          omega
        · rw [if_neg hi, List.count_cons_of_ne (word_ne_hwtick he hi)]
      · have hne : (.word w : Input) ≠ .word 0b001#3 := by
          intro hw'
          cases hw'
          simp at hw
        rw [runFrom_refused hw, List.count_cons_of_ne hne]
        exact ih b h hrest
    · exact absurd rfl (hreset .reset List.mem_cons_self)

/-- One more hardware tick is one more TICK exactly where it meets `DIV = 0`. -/
theorem ticksAmong_succ {d : Nat} (hd : d ≤ 25) (n : Nat) :
    Claims.ticksAmong d (n + 1) = Claims.ticksAmong d n + if (d + n) % 26 = 0 then 1 else 0 := by
  unfold Claims.ticksAmong
  split_ifs <;> omega

theorem hwticks_succ (n : Nat) : Claims.hwticks (n + 1) = Claims.hwticks n ++ [.word 0b001#3] := List.replicate_succ'

/-- HWTICK on a ready block at a given legal `DIV`: the TICK at 0, and the count. -/
theorem blockStep_hwtick_setDiv {b : Block} (h : b.Ready) {d : DivCount} (hd : d.toNat ≤ 25) :
    blockStep .hwtick (b.setDiv d) =
      if d = 0#5 then ((blockStep .evTick b).1.setDiv 1#5, (blockStep .evTick b).2) else (b.setDiv (divNext d), none) := by
  obtain ⟨m, hm⟩ := h.readyIn
  have hd' := hm.setDiv hd
  split
  case isTrue h0 =>
    rw [blockStep_of_readyIn hd', blockStep_of_readyIn hm, ruleOf, hwtickRule_of_div_eq_zero m h0, applyEvent_setDiv]
    rfl
  case isFalse h0 =>
    rw [blockStep_hwtick_of_div_ne_zero hd' h0]
    rfl

/-- `DIV` after `n` hardware ticks, from the value `d` (40_divider.md section 2). -/
def divAfter (d n : Nat) : DivCount := BitVec.ofNat 5 ((d + n) % 26)

theorem divAfter_toNat (d n : Nat) : (divAfter d n).toNat = (d + n) % 26 := by
  rw [divAfter, BitVec.toNat_ofNat]
  omega

theorem divAfter_le (d n : Nat) : (divAfter d n).toNat ≤ 25 := by
  rw [divAfter_toNat]
  omega

theorem divAfter_eq_self {d : DivCount} {n : Nat} (h : (d.toNat + n) % 26 = d.toNat) : divAfter d.toNat n = d := by
  rw [← BitVec.toNat_inj, divAfter_toNat, h]

theorem divAfter_eq_zero_iff (d n : Nat) : divAfter d n = 0#5 ↔ (d + n) % 26 = 0 := by
  rw [← BitVec.toNat_inj, divAfter_toNat, BitVec.toNat_ofNat]

theorem divAfter_succ (d n : Nat) : divAfter d (n + 1) = divNext (divAfter d n) := by
  rw [← BitVec.toNat_inj, divNext_toNat, divAfter_toNat, divAfter_toNat]
  omega

/-- `n` hardware ticks do what the TICKs among them do, emission for emission, and count `DIV` on. -/
theorem runFrom_hwticks {b : Block} (h : b.Ready) (n : Nat) :
    (runFrom b (Claims.hwticks n)).block =
        (runEvents b (Claims.ticks (Claims.ticksAmong b.div.toNat n))).block.setDiv (divAfter b.div.toNat n) ∧
      (runFrom b (Claims.hwticks n)).emissions =
        (runEvents b (Claims.ticks (Claims.ticksAmong b.div.toNat n))).emissions := by
  have hd : b.div.toNat ≤ 25 := h.div_le
  induction n with
  | zero =>
    rw [divAfter_eq_self (by omega)]
    exact ⟨rfl, rfl⟩
  | succ n ih =>
    obtain ⟨hblock, hemissions⟩ := ih
    have hready := runEvents_ready h (Claims.ticks (Claims.ticksAmong b.div.toNat n))
    rw [hwticks_succ, runFrom_concat_word (i := .hwtick) rfl, Run.emissions_add, Run.add_block, hblock,
      blockStep_hwtick_setDiv hready (divAfter_le _ _), ticksAmong_succ hd, hemissions, divAfter_succ]
    by_cases h0 : (b.div.toNat + n) % 26 = 0
    · have hzero : divAfter b.div.toNat n = 0#5 := (divAfter_eq_zero_iff _ _).mpr h0
      rw [if_pos hzero, if_pos h0, hzero, ticks_succ, runEvents_concat_word, Run.emissions_add, decodeEvt_tick]
      exact ⟨rfl, rfl⟩
    · have hnonzero : divAfter b.div.toNat n ≠ 0#5 := fun hzero => h0 ((divAfter_eq_zero_iff _ _).mp hzero)
      rw [if_neg hnonzero, if_neg h0]
      exact ⟨rfl, List.append_nil _⟩

/-- `n` hardware ticks in a moving state. -/
theorem runFrom_hwticks_moving {moving braking : MotorState} {k : Nat} (hw : Way moving braking k) {b : Block}
    (h : b.ReadyIn moving) (n : Nat) :
    (runFrom b (Claims.hwticks n)).emissions.length = Claims.ticksAmong b.div.toNat n ∧
      (runFrom b (Claims.hwticks n)).block.state = codeOf moving ∧
      (runFrom b (Claims.hwticks n)).block.idx.toNat = (b.idx.toNat + k * Claims.ticksAmong b.div.toNat n) % 32 := by
  obtain ⟨hblock, hemissions⟩ := runFrom_hwticks h.ready n
  obtain ⟨hwaves, hidx, ⟨-, hstate, -⟩⟩ := runEvents_ticks_moving hw h (Claims.ticksAmong b.div.toNat n)
  rw [hblock, hemissions, hwaves, Block.setDiv_state, Block.setDiv_idx, hidx, idxPlus_toNat, List.length_map,
    List.length_range]
  exact ⟨rfl, hstate, rfl⟩

/-- Settles O43, for each way of motion. -/
theorem hwticksMoveAtTheStepRate : Obligations.HwticksMoveAtTheStepRate := by
  refine fun b n => ⟨fun h => ?_, fun h => runFrom_hwticks_moving .reverse h n⟩
  have hforward := runFrom_hwticks_moving .forward h n
  rwa [Nat.one_mul] at hforward

theorem runEvents_ticks_at_rest {b : Block} (h : b.ReadyIn .stopped) (n : Nat) :
    (runEvents b (Claims.ticks n)).block = b :=
  ((restIgnoresTicks { State.reset with block := b } h).2.2 (Claims.ticks n) fun _ hx =>
    .inl (List.eq_of_mem_replicate hx)).1

/-- Eight TICKs are enough to stop a block that brakes for at most seven before it parks. -/
theorem runEvents_eight_ticks_stop {moving braking : MotorState} {k n : Nat} (hw : Way moving braking k) {b : Block}
    (h : b.ReadyIn braking) (hn : BrakesAfter k b.idx n) (hle : n ≤ 7) :
    (runEvents b (Claims.ticks 8)).block.state = codeOf .stopped ∧
      (runEvents b (Claims.ticks 8)).block.idx.toNat % 8 = 0 := by
  have hsplit : Claims.ticks 8 = Claims.ticks (n + 1) ++ Claims.ticks (7 - n) := by
    rw [Claims.ticks, Claims.ticks, Claims.ticks, List.replicate_append_replicate]
    congr 1
    omega
  obtain ⟨hblock, -, -⟩ := runEvents_ticks_braking hw h hn
  have hrest : (runEvents b (Claims.ticks (n + 1))).block.ReadyIn .stopped := by
    rw [hblock]
    exact h.setState .stopped
  rw [hsplit, runEvents_append_block, runEvents_ticks_at_rest hrest, hblock]
  exact ⟨rfl, hn.2⟩

/-- Settles O50: 208 hardware ticks are eight TICKs from every `DIV`, and eight times 26, so `DIV` comes back. -/
theorem brakingEndsWithin208Hwticks : Obligations.BrakingEndsWithin208Hwticks := by
  intro b h
  have hready : b.Ready := h.elim Block.ReadyIn.ready Block.ReadyIn.ready
  have hd : b.div.toNat ≤ 25 := hready.div_le
  have height : Claims.ticksAmong b.div.toNat 208 = 8 := by
    unfold Claims.ticksAmong
    split_ifs <;> omega
  have hdiv : divAfter b.div.toNat 208 = b.div := divAfter_eq_self (by omega)
  have hstop : (runEvents b (Claims.ticks 8)).block.state = codeOf .stopped ∧
      (runEvents b (Claims.ticks 8)).block.idx.toNat % 8 = 0 := by
    rcases h with h | h
    · exact runEvents_eight_ticks_stop .forward h (brakesAfter_forward b.idx) (by omega)
    · exact runEvents_eight_ticks_stop .reverse h (brakesAfter_backward b.idx) (by omega)
  rw [(runFrom_hwticks hready 208).1, height, hdiv]
  exact ⟨hstop.1, hstop.2, rfl⟩

end Sys2Proof.Machine
end

section
/-! PROOFS. The assembler's lines, run on a ready block (30_encoding.md section 4, decision D19). -/

namespace Sys2Proof.Machine

theorem stimItems_replicate (n : Nat) (w : StimWord) :
    stimItems (List.replicate n (.word (.stim w))) = List.replicate n (.word w) :=
  List.filterMap_replicate_of_some (by rfl)

theorem evtItems_replicate (n : Nat) (e : EvtWord) :
    evtItems (List.replicate n (.word (.evt e))) = List.replicate n (.word e) :=
  List.filterMap_replicate_of_some (by rfl)

/-- The inputs of `STEP*k` are as many hardware ticks as its length. -/
theorem stimItems_expand_step (d k : Nat) :
    stimItems (expandLine d (.step k)).1 = Claims.hwticks (stepLength d k) := stimItems_replicate _ _

/-- The length of `STEP*k` is that of `k` TICKs (R58). -/
theorem ticksAmong_stepLength {d k : Nat} (hk : 1 ≤ k) : Claims.ticksAmong d (stepLength d k) = k := by
  have hlength : stepLength d k = (26 - d) % 26 + 1 + 26 * (k - 1) := rfl
  rw [Claims.ticksAmong, if_neg (by omega)]
  omega

theorem stepLength_leaves_one {d : Nat} (hd : d ≤ 25) (k : Nat) : (d + stepLength d k) % 26 = 1 := by
  simp only [stepLength, ticksToTick, divisor]
  omega

/-- Settles O44: `STEP*k` is `stepLength` hardware ticks, among which there are `k` TICKs. -/
theorem stepExpansionIsExactlyKTicks : Obligations.StepExpansionIsExactlyKTicks := by
  intro b k h hk
  have hrun := runFrom_hwticks h (stepLength b.div.toNat k)
  rw [ticksAmong_stepLength hk, divAfter, stepLength_leaves_one h.div_le] at hrun
  rw [stimItems_expand_step]
  exact hrun

/-- The inputs of a stimulus repeated, with the count of the divider (R57, R60). -/
theorem runFrom_replicate_div {b : Block} (h : b.Ready) {i : Instr} {w : StimWord} (he : encode i = .stim w) (n : Nat) :
    (runFrom b (List.replicate n (.word w))).block.div.toNat =
      if i = .hwtick then (b.div.toNat + n) % 26 else b.div.toNat := by
  rw [dividerCountsHwticks b _ h (replicate_word_without_reset n w)]
  by_cases hi : i = .hwtick
  · subst hi
    cases he
    rw [if_pos rfl, List.count_replicate_self]
  · have hd := h.div_le
    rw [if_neg hi, List.count_replicate, if_neg (by simpa using word_ne_hwtick he hi)]
    omega

/-- A run that repeats one accepted word is clean. -/
theorem runWith_replicate_clean {α : Type} {dec : α → Except DecodeRefusal Instr} {b : Block} (h : b.Ready) {w : α}
    {i : Instr} (hw : dec w = .ok i) (n : Nat) : (runWith dec b (List.replicate n (.word w))).clean := by
  obtain ⟨hrefused, hready⟩ := runWith_accepted (xs := List.replicate n (.word w)) h fun v hv => by
    cases List.eq_of_mem_replicate hv
    exact ⟨i, hw⟩
  exact ⟨hrefused, hready.1⟩

/-- Settles O45, for each line and each format it fits: a repeated word of the port, the reset line, or hardware ticks. -/
theorem assemblerTracksTheDivider : Obligations.AssemblerTracksTheDivider := by
  refine fun b l h _ => ⟨fun hfit => ?stim, fun hfit => ?evt⟩
  case stim =>
    cases l with
    | instr i n =>
      have hformat : (encode i).format = .stim3 := (encode_format i).trans (of_decide_eq_true hfit)
      cases he : encode i with
      | evt e => simp [he, PortWord.format] at hformat
      | stim w =>
        simp only [expandLine, he, stimItems_replicate, List.length_replicate, true_and]
        exact ⟨runFrom_replicate_div h he n, runWith_replicate_clean h (decodeStim_of_encode he) n⟩
    | reset => exact ⟨rfl, rfl, rfl, rfl⟩
    | step k =>
      rw [stimItems_expand_step]
      refine ⟨by simp [Claims.hwticks, expandLine], ?_, runWith_replicate_clean (dec := decodeStim) (i := .hwtick) h rfl _⟩
      exact (runFrom_replicate_div (i := .hwtick) h rfl _).trans (stepLength_leaves_one h.div_le k)
  case evt =>
    cases l with
    | instr i n =>
      have hformat : (encode i).format = .evt2 := (encode_format i).trans (of_decide_eq_true hfit)
      cases he : encode i with
      | stim w => simp [he, PortWord.format] at hformat
      | evt e =>
        have hi : i ≠ .hwtick := by
          rintro rfl
          cases he
        have hdiv := runEvents_div b (replicate_word_without_reset n e)
        simp only [expandLine, he, evtItems_replicate, List.length_replicate, true_and, if_neg hi]
        exact ⟨congrArg BitVec.toNat hdiv, runWith_replicate_clean (dec := decodeEvent) h rfl n⟩
    | reset => exact ⟨rfl, rfl, rfl, rfl⟩
    | step k => simp [Line.fitsFormat] at hfit

end Sys2Proof.Machine
end

section
/-! PROOFS. The orders in which stimuli that wait together may be served (60_exceptions.md section 2, decision D10). -/

namespace Sys2Proof.Machine

/-- The commands are the three command stimuli (R109). -/
theorem not_isCommand_iff (i : Instr) :
    ¬ isCommand i = true ↔ i ≠ .cmdAdvance ∧ i ≠ .cmdRetreat ∧ i ≠ .cmdStop := by
  cases i <;> simp [isCommand]

/-- An order in pairs is an order at every hardware tick: no command stands before it. -/
theorem pairwise_ticksFirst_iff (order : List Instr) :
    (order.Pairwise fun a b => ¬ (isCommand a = true ∧ b = .hwtick)) ↔
      ∀ before after, order = before ++ .hwtick :: after → ∀ c ∈ before, ¬ isCommand c = true := by
  constructor
  · rintro h before after rfl c hc hcommand
    exact (List.pairwise_append.mp h).2.2 c hc .hwtick List.mem_cons_self ⟨hcommand, rfl⟩
  · intro h
    induction order with
    | nil => exact .nil
    | cons a order ih =>
      refine .cons (fun b hb => ?_) (ih fun before after horder c hc => ?_)
      · rintro ⟨hcommand, rfl⟩
        obtain ⟨before, after, rfl⟩ := List.append_of_mem hb
        exact h (a :: before) after rfl a List.mem_cons_self hcommand
      · exact h (a :: before) after (by rw [horder]; rfl) c (List.mem_cons_of_mem a hc)

/-- The order that serves the hardware ticks first. -/
def ticksFirst (waiting : List Instr) : List Instr :=
  waiting.filter (fun i => decide (i = .hwtick)) ++ waiting.filter (fun i => !decide (i = .hwtick))

theorem ticksFirst_serviceOrder (env : Config.Environment) (waiting : List Instr) :
    ServiceOrder env waiting (ticksFirst waiting) := by
  refine ⟨List.filter_append_perm _ waiting, fun _ => ?_⟩
  have htick : ∀ a ∈ waiting.filter (fun i => decide (i = .hwtick)), a = .hwtick := by simp
  have hother : ∀ b ∈ waiting.filter (fun i => !decide (i = .hwtick)), b ≠ .hwtick := by simp
  refine List.pairwise_append.mpr ⟨?_, ?_, fun a _ b hb h => hother b hb h.2⟩
  · refine List.pairwise_of_forall_mem_list fun a ha b _ h => ?_
    rw [htick a ha] at h
    simp [isCommand] at h
  · exact List.pairwise_of_forall_mem_list fun a _ b hb h => hother b hb h.2

/-- Settles O53: with `TICK_FIRST` off only the permutation is asked, with it on `pairwise_ticksFirst_iff` reads the order at
each tick, and the ticks first are an order for both. -/
theorem serviceOrdersExist : Obligations.ServiceOrdersExist := by
  refine ⟨fun env waiting order h => ?_, fun env waiting order h => ?_, fun env waiting =>
    ⟨ticksFirst waiting, ticksFirst_serviceOrder env waiting⟩⟩
  · simp [ServiceOrder, h]
  · simp only [ServiceOrder, h, forall_const, pairwise_ticksFirst_iff, not_isCommand_iff]

end Sys2Proof.Machine
end
